-- ==== Sys2Proof/Word.lean ====
section
/-! DEFINITION. The word types of UNCA (00_scope.md rules R5, R6; 30_encoding.md rules R70 to R72). -/

namespace Sys2Proof

/-- A 64-bit unsigned value: a data register, a limb, a CMD value (R5, R6). -/
abbrev Word := BitVec 64

/-- One byte lane of the bus (R53). -/
abbrev Byte := BitVec 8

/-- A 32-bit command word (R70). -/
abbrev CommandWord := BitVec 32

/-- A data register number, 0 to 15, selecting X0 to X15 (R72). -/
abbrev Reg := BitVec 4

/-- A limb number, 0 to 7, selecting L0 to L7 (R23). -/
abbrev LimbIndex := Fin 8

end Sys2Proof
end

