-- ==== Sys2Proof/Syntax.lean ====
section
/-! DEFINITION. The syntax of UNCA: its commands (30_encoding.md rule R75, one constructor per row of opcode_table.json),
opcodes, error causes (60_exceptions.md rule R181), assembler lines (R78) and pseudo-instructions (R79). -/

namespace Sys2Proof

/-- The commands. A field is named by its letter in R75: `rd`, `ra`, `rb`, `rc`. LDIVMOD keeps the whole IMM8 field, of
which `first` is bits 2:0 and bits 7:3 must be zero (R73; checked in WellFormed). -/
inductive Instr where
  | nop
  | magic (rd ra : Reg)
  | fdivn (rd ra rb : Reg)
  | fmodn (rd ra rb rc : Reg)
  | fdivw (rd ra rb : Reg)
  | fmodw (rd ra rb rc : Reg)
  | ldivmod (rd rb rc : Reg) (imm8 : BitVec 8)
  | lmuladd (rd ra rb : Reg)
  | madd (rd ra rb rc : Reg)
  | lpack (ra rb : Reg)
  | lhi (rd : Reg)
  | llo (rd : Reg)
  | cmpmsb (rd ra : Reg)
  | expmsb (rd ra rb : Reg)
  | cmplsb (rd ra : Reg)
  | explsb (rd ra rb : Reg)
  | cmplex (rd ra : Reg)
  | explex (rd ra rb : Reg)
  | getver (rd ra : Reg)
  | getvar (rd ra : Reg)
  | getvarlex (rd ra : Reg)
  | getvarn (rd ra : Reg)
  | pext (rd ra rb : Reg)
  | pdep (rd ra rb : Reg)
  deriving DecidableEq, Repr

/-- The assigned opcodes, in the order of R75's table. -/
inductive Opcode where
  | nop | magic | fdivn | fmodn | fdivw | fmodw
  | ldivmod | lmuladd | madd | lpack | lhi | llo
  | cmpmsb | expmsb | cmplsb | explsb | cmplex | explex
  | getver | getvar | getvarlex | getvarn | pext | pdep
  deriving DecidableEq, Repr

/-- The causes of a BlockError (R181); "no error recorded" (code 0x00) is the absence of a cause. -/
inductive Cause where
  /-- The opcode is not assigned (R76). -/
  | illegalOpcode
  /-- CMD bits 63:32 or an unused field are nonzero (R74). -/
  | reservedField
  /-- MAGIC with divisor 0 (R101). -/
  | divisorZero
  /-- MAGIC with divisor 1 (R101). -/
  | magicRange
  /-- LDIVMOD with `first ≥ N` (R121). -/
  | limbIndex
  deriving DecidableEq, Repr

/-- One operand of an assembler line: a register `x0` to `x15`, or LDIVMOD's `#n` (R78). -/
inductive Operand where
  | reg (r : Reg)
  | limb (n : Nat)
  deriving DecidableEq, Repr

/-- An assembler line: a mnemonic and its operands in the order written (R78). -/
structure AsmLine where
  mnemonic : Opcode
  operands : List Operand
  deriving DecidableEq, Repr

/-- The pseudo-instructions (R79), operands in the order written. -/
inductive Pseudo where
  | mov (xd xa : Reg)
  | clr (xd : Reg)
  | clrl
  | split3 (xq2 xq1 xq0 xr xm1 xd1 xm2 xd2 : Reg)
  deriving DecidableEq, Repr

end Sys2Proof
end

