-- ==== Sys2Proof/WellFormed.lean ====
section
/-! DEFINITION. Which terms of the syntax are commands of UNCA. Register numbers are four bits by type, so the checks
left are LDIVMOD's immediate (30_encoding.md rule R73) and SPLIT3's register conditions (R79). -/

namespace Sys2Proof

/-- R73: LDIVMOD's IMM8[7:3] must be zero. -/
def immediateLegal (imm8 : BitVec 8) : Bool := decide (imm8.toNat < 8)

/-- The command can be written as a legal command word (R73, R74). -/
def Instr.wellFormed : Instr → Bool
  | .nop => true
  | .magic _ _ => true
  | .fdivn _ _ _ => true
  | .fmodn _ _ _ _ => true
  | .fdivw _ _ _ => true
  | .fmodw _ _ _ _ => true
  | .ldivmod _ _ _ imm8 => immediateLegal imm8
  | .lmuladd _ _ _ => true
  | .madd _ _ _ _ => true
  | .lpack _ _ => true
  | .lhi _ => true
  | .llo _ => true
  | .cmpmsb _ _ => true
  | .expmsb _ _ _ => true
  | .cmplsb _ _ => true
  | .explsb _ _ _ => true
  | .cmplex _ _ => true
  | .explex _ _ _ => true
  | .getver _ _ => true
  | .getvar _ _ => true
  | .getvarlex _ _ => true
  | .getvarn _ _ => true
  | .pext _ _ _ => true
  | .pdep _ _ _ => true

/-- R79: SPLIT3's three destinations are distinct, and none of them is a source. -/
def Pseudo.wellFormed : Pseudo → Bool
  | .mov _ _ => true
  | .clr _ => true
  | .clrl => true
  | .split3 xq2 xq1 xq0 xr xm1 xd1 xm2 xd2 =>
    decide (xq2 ≠ xq1) && decide (xq2 ≠ xq0) && decide (xq1 ≠ xq0) &&
      [xq2, xq1, xq0].all fun q => [xr, xm1, xd1, xm2, xd2].all fun x => decide (q ≠ x)

end Sys2Proof
end

