-- ==== Sys2Proof/Decode.lean ====
section
/-! DEFINITION. Decoding a CMD value (30_encoding.md rule R77), the encoder (R71, R75), and the assembler's operand
orders and pseudo-instructions (R78, R79). Both directions read the same table of opcodes and masks (R75). -/

namespace Sys2Proof

/-- What a CMD value decodes to: a command, or the cause of a BlockError (R77). -/
inductive Decoded where
  | command (i : Instr)
  | error (c : Cause)
  deriving DecidableEq, Repr

/-- The cause codes recorded in STATUS.CAUSE (60_exceptions.md rule R181). -/
def Cause.code : Cause → BitVec 8
  | .illegalOpcode => 0x01#8
  | .reservedField => 0x02#8
  | .divisorZero => 0x03#8
  | .magicRange => 0x04#8
  | .limbIndex => 0x05#8

/-! ### The opcode map (R75) -/

/-- Every row of R75's table, in its order. -/
def Opcode.all : List Opcode :=
  [.nop, .magic, .fdivn, .fmodn, .fdivw, .fmodw] ++
  [.ldivmod, .lmuladd, .madd, .lpack, .lhi, .llo] ++
  [.cmpmsb, .expmsb, .cmplsb, .explsb, .cmplex, .explex] ++
  [.getver, .getvar, .getvarlex, .getvarn, .pext, .pdep]

/-- The OP column of R75. -/
def Opcode.code : Opcode → BitVec 8
  | .nop => 0x00#8
  | .magic => 0x10#8
  | .fdivn => 0x11#8
  | .fmodn => 0x12#8
  | .fdivw => 0x13#8
  | .fmodw => 0x14#8
  | .ldivmod => 0x20#8
  | .lmuladd => 0x21#8
  | .madd => 0x22#8
  | .lpack => 0x23#8
  | .lhi => 0x24#8
  | .llo => 0x25#8
  | .cmpmsb => 0x30#8
  | .expmsb => 0x31#8
  | .cmplsb => 0x32#8
  | .explsb => 0x33#8
  | .cmplex => 0x34#8
  | .explex => 0x35#8
  | .getver => 0x36#8
  | .getvar => 0x37#8
  | .getvarlex => 0x38#8
  | .getvarn => 0x39#8
  | .pext => 0x3A#8
  | .pdep => 0x3B#8

/-- The mask column of R75: the bits of the command word that are fixed. -/
def Opcode.mask : Opcode → CommandWord
  | .nop => 0xFFFFFFFF#32
  | .magic => 0xFFFF00FF#32
  | .fdivn => 0xFFF000FF#32
  | .fmodn => 0xFF0000FF#32
  | .fdivw => 0xFFF000FF#32
  | .fmodw => 0xFF0000FF#32
  | .ldivmod => 0xF800F0FF#32
  | .lmuladd => 0xFFF000FF#32
  | .madd => 0xFF0000FF#32
  | .lpack => 0xFFF00FFF#32
  | .lhi => 0xFFFFF0FF#32
  | .llo => 0xFFFFF0FF#32
  | .cmpmsb => 0xFFFF00FF#32
  | .expmsb => 0xFFF000FF#32
  | .cmplsb => 0xFFFF00FF#32
  | .explsb => 0xFFF000FF#32
  | .cmplex => 0xFFFF00FF#32
  | .explex => 0xFFF000FF#32
  | .getver => 0xFFFF00FF#32
  | .getvar => 0xFFFF00FF#32
  | .getvarlex => 0xFFFF00FF#32
  | .getvarn => 0xFFFF00FF#32
  | .pext => 0xFFF000FF#32
  | .pdep => 0xFFF000FF#32

/-- The match column of R75: the opcode in bits 7:0, every other fixed bit zero. -/
def Opcode.matchWord (op : Opcode) : CommandWord := op.code.setWidth 32

/-- The row of R75 whose OP is `b`; none for the 232 unassigned values (R76). -/
def Opcode.ofCode (b : BitVec 8) : Option Opcode := Opcode.all.find? fun op => op.code == b

/-- The command of a row, given the five operand fields (R75). -/
def Opcode.build (op : Opcode) (rd ra rb rc : Reg) (imm8 : BitVec 8) : Instr :=
  match op with
  | .nop => .nop
  | .magic => .magic rd ra
  | .fdivn => .fdivn rd ra rb
  | .fmodn => .fmodn rd ra rb rc
  | .fdivw => .fdivw rd ra rb
  | .fmodw => .fmodw rd ra rb rc
  | .ldivmod => .ldivmod rd rb rc imm8
  | .lmuladd => .lmuladd rd ra rb
  | .madd => .madd rd ra rb rc
  | .lpack => .lpack ra rb
  | .lhi => .lhi rd
  | .llo => .llo rd
  | .cmpmsb => .cmpmsb rd ra
  | .expmsb => .expmsb rd ra rb
  | .cmplsb => .cmplsb rd ra
  | .explsb => .explsb rd ra rb
  | .cmplex => .cmplex rd ra
  | .explex => .explex rd ra rb
  | .getver => .getver rd ra
  | .getvar => .getvar rd ra
  | .getvarlex => .getvarlex rd ra
  | .getvarn => .getvarn rd ra
  | .pext => .pext rd ra rb
  | .pdep => .pdep rd ra rb

/-! ### Decoding (R77) -/

/-- R77, in its order: the opcode, the high word, the fields that must be zero, then the command. -/
def decode (w : Word) : Decoded :=
  match Opcode.ofCode (w.extractLsb' 0 8) with
  | none => .error .illegalOpcode
  | some op =>
    if w.extractLsb' 32 32 ≠ 0#32 then .error .reservedField
    else if w.extractLsb' 0 32 &&& op.mask ≠ op.matchWord then .error .reservedField
    else
      .command (op.build (w.extractLsb' 8 4) (w.extractLsb' 12 4) (w.extractLsb' 16 4) (w.extractLsb' 20 4)
        (w.extractLsb' 24 8))

/-! ### Byte lanes (R53) -/

/-- The value carried by byte lanes, lane 0 first: lane i carries bits 8i+7:8i (R53). -/
def lanesToNat : List Byte → Nat
  | [] => 0
  | b :: rest => b.toNat + 256 * lanesToNat rest

/-- The 64-bit value of the eight lanes of an access (R53). -/
def wordOfLanes (lanes : List Byte) : Word := BitVec.ofNat 64 (lanesToNat lanes)

/-- The eight byte lanes of a 64-bit value, lane 0 first (R53). -/
def lanesOfWord (v : Word) : List Byte :=
  [v.extractLsb' 0 8, v.extractLsb' 8 8, v.extractLsb' 16 8, v.extractLsb' 24 8,
    v.extractLsb' 32 8, v.extractLsb' 40 8, v.extractLsb' 48 8, v.extractLsb' 56 8]

/-- The decoder on bytes: a CMD value is exactly eight lanes (R52, R53, R70). -/
def decodeLanes (lanes : List Byte) : Option Decoded :=
  if lanes.length = 8 then some (decode (wordOfLanes lanes)) else none

/-- The command my decoder reads from the `nbits`-bit word `w`, laid out in the eight little-endian lanes of a CMD
write with every bit from `nbits` up zero (R53, R70). -/
def decodeTableWord (nbits w : Nat) : Option Instr :=
  match decodeLanes (lanesOfWord (BitVec.ofNat 64 (w % 2 ^ nbits))) with
  | some (.command i) => some i
  | some (.error _) => none
  | none => none

/-! ### Encoding (R71, R75) -/

/-- R71: the five operand fields and the opcode in their places, IMM8 in bits 31:24 down to OP in bits 7:0. -/
def packFields (imm8 : BitVec 8) (rc rb ra rd : Reg) (op : BitVec 8) : CommandWord :=
  imm8 ++ rc ++ rb ++ ra ++ rd ++ op

/-- The opcode of a command (R75). -/
def Instr.opcode : Instr → Opcode
  | .nop => .nop
  | .magic _ _ => .magic
  | .fdivn _ _ _ => .fdivn
  | .fmodn _ _ _ _ => .fmodn
  | .fdivw _ _ _ => .fdivw
  | .fmodw _ _ _ _ => .fmodw
  | .ldivmod _ _ _ _ => .ldivmod
  | .lmuladd _ _ _ => .lmuladd
  | .madd _ _ _ _ => .madd
  | .lpack _ _ => .lpack
  | .lhi _ => .lhi
  | .llo _ => .llo
  | .cmpmsb _ _ => .cmpmsb
  | .expmsb _ _ _ => .expmsb
  | .cmplsb _ _ => .cmplsb
  | .explsb _ _ _ => .explsb
  | .cmplex _ _ => .cmplex
  | .explex _ _ _ => .explex
  | .getver _ _ => .getver
  | .getvar _ _ => .getvar
  | .getvarlex _ _ => .getvarlex
  | .getvarn _ _ => .getvarn
  | .pext _ _ _ => .pext
  | .pdep _ _ _ => .pdep

/-- The command word of a command: its fields in place, every field it does not use zero (R71, R74, R75). -/
def encode (i : Instr) : CommandWord :=
  match i with
  | .nop => packFields 0 0 0 0 0 i.opcode.code
  | .magic rd ra => packFields 0 0 0 ra rd i.opcode.code
  | .fdivn rd ra rb => packFields 0 0 rb ra rd i.opcode.code
  | .fmodn rd ra rb rc => packFields 0 rc rb ra rd i.opcode.code
  | .fdivw rd ra rb => packFields 0 0 rb ra rd i.opcode.code
  | .fmodw rd ra rb rc => packFields 0 rc rb ra rd i.opcode.code
  | .ldivmod rd rb rc imm8 => packFields imm8 rc rb 0 rd i.opcode.code
  | .lmuladd rd ra rb => packFields 0 0 rb ra rd i.opcode.code
  | .madd rd ra rb rc => packFields 0 rc rb ra rd i.opcode.code
  | .lpack ra rb => packFields 0 0 rb ra 0 i.opcode.code
  | .lhi rd => packFields 0 0 0 0 rd i.opcode.code
  | .llo rd => packFields 0 0 0 0 rd i.opcode.code
  | .cmpmsb rd ra => packFields 0 0 0 ra rd i.opcode.code
  | .expmsb rd ra rb => packFields 0 0 rb ra rd i.opcode.code
  | .cmplsb rd ra => packFields 0 0 0 ra rd i.opcode.code
  | .explsb rd ra rb => packFields 0 0 rb ra rd i.opcode.code
  | .cmplex rd ra => packFields 0 0 0 ra rd i.opcode.code
  | .explex rd ra rb => packFields 0 0 rb ra rd i.opcode.code
  | .getver rd ra => packFields 0 0 0 ra rd i.opcode.code
  | .getvar rd ra => packFields 0 0 0 ra rd i.opcode.code
  | .getvarlex rd ra => packFields 0 0 0 ra rd i.opcode.code
  | .getvarn rd ra => packFields 0 0 0 ra rd i.opcode.code
  | .pext rd ra rb => packFields 0 0 rb ra rd i.opcode.code
  | .pdep rd ra rb => packFields 0 0 rb ra rd i.opcode.code

/-- The CMD value that submits a command: the command word with bits 63:32 zero (R70). No encoding has two spellings
(R74), so a command determines the CMD value it was submitted by (assumption 6). -/
def cmdValue (i : Instr) : Word := (encode i).setWidth 64

/-! ### Assembler lines and pseudo-instructions (R78, R79) -/

/-- The assembler line of a command: its operands in R78's order. -/
def disassemble (i : Instr) : AsmLine :=
  match i with
  | .nop => ⟨i.opcode, []⟩
  | .magic rd ra => ⟨i.opcode, [.reg rd, .reg ra]⟩
  | .fdivn rd ra rb => ⟨i.opcode, [.reg rd, .reg ra, .reg rb]⟩
  | .fmodn rd ra rb rc => ⟨i.opcode, [.reg rd, .reg ra, .reg rb, .reg rc]⟩
  | .fdivw rd ra rb => ⟨i.opcode, [.reg rd, .reg ra, .reg rb]⟩
  | .fmodw rd ra rb rc => ⟨i.opcode, [.reg rd, .reg ra, .reg rb, .reg rc]⟩
  | .ldivmod rd rb rc imm8 => ⟨i.opcode, [.reg rd, .reg rb, .reg rc, .limb imm8.toNat]⟩
  | .lmuladd rd ra rb => ⟨i.opcode, [.reg rd, .reg ra, .reg rb]⟩
  | .madd rd ra rb rc => ⟨i.opcode, [.reg rd, .reg ra, .reg rb, .reg rc]⟩
  | .lpack ra rb => ⟨i.opcode, [.reg ra, .reg rb]⟩
  | .lhi rd => ⟨i.opcode, [.reg rd]⟩
  | .llo rd => ⟨i.opcode, [.reg rd]⟩
  | .cmpmsb rd ra => ⟨i.opcode, [.reg rd, .reg ra]⟩
  | .expmsb rd ra rb => ⟨i.opcode, [.reg rd, .reg ra, .reg rb]⟩
  | .cmplsb rd ra => ⟨i.opcode, [.reg rd, .reg ra]⟩
  | .explsb rd ra rb => ⟨i.opcode, [.reg rd, .reg ra, .reg rb]⟩
  | .cmplex rd ra => ⟨i.opcode, [.reg rd, .reg ra]⟩
  | .explex rd ra rb => ⟨i.opcode, [.reg rd, .reg ra, .reg rb]⟩
  | .getver rd ra => ⟨i.opcode, [.reg rd, .reg ra]⟩
  | .getvar rd ra => ⟨i.opcode, [.reg rd, .reg ra]⟩
  | .getvarlex rd ra => ⟨i.opcode, [.reg rd, .reg ra]⟩
  | .getvarn rd ra => ⟨i.opcode, [.reg rd, .reg ra]⟩
  | .pext rd ra rb => ⟨i.opcode, [.reg rd, .reg ra, .reg rb]⟩
  | .pdep rd ra rb => ⟨i.opcode, [.reg rd, .reg ra, .reg rb]⟩

/-- The command an assembler line stands for: each operand goes to the field of the same letter, in the form R78 gives
the mnemonic; none for any other operand list or an `#n` above 7. -/
def assemble (l : AsmLine) : Option Instr :=
  match l.mnemonic with
  | .nop => if l.operands = [] then some .nop else none
  | .magic | .cmpmsb | .cmplsb | .cmplex | .getver | .getvar | .getvarlex | .getvarn =>
    match l.operands with
    | [.reg xd, .reg xa] => some (l.mnemonic.build xd xa 0 0 0)
    | _ => none
  | .fdivn | .fdivw | .lmuladd | .expmsb | .explsb | .explex | .pext | .pdep =>
    match l.operands with
    | [.reg xd, .reg xa, .reg xb] => some (l.mnemonic.build xd xa xb 0 0)
    | _ => none
  | .fmodn | .fmodw | .madd =>
    match l.operands with
    | [.reg xd, .reg xa, .reg xb, .reg xc] => some (l.mnemonic.build xd xa xb xc 0)
    | _ => none
  | .ldivmod =>
    match l.operands with
    | [.reg xd, .reg xb, .reg xc, .limb n] => if n < 8 then some (.ldivmod xd xb xc (BitVec.ofNat 8 n)) else none
    | _ => none
  | .lpack =>
    match l.operands with
    | [.reg xa, .reg xb] => some (.lpack xa xb)
    | _ => none
  | .lhi | .llo =>
    match l.operands with
    | [.reg xd] => some (l.mnemonic.build xd 0 0 0 0)
    | _ => none

/-- R79: the exact expansion of each pseudo-instruction. -/
def Pseudo.expand : Pseudo → List Instr
  | .mov xd xa => [.madd xd 0 0 xa]
  | .clr xd => [.madd xd 0 0 0]
  | .clrl => [.lpack 0 0]
  | .split3 xq2 xq1 xq0 xr xm1 xd1 xm2 xd2 =>
    [.fdivn xq2 xr xm2, .fmodn xq0 xr xm2 xd2, .fdivn xq1 xq0 xm1, .fmodn xq0 xq0 xm1 xd1]

end Sys2Proof
end

