-- ==== Sys2Proof/Config.lean ====
section
/-! DEFINITION. What is fixed for this hardware and is not state: the parameters of 00_scope.md rule R5, the constants
of 10_state.md rules R27 and R32, and the two parameters the spec leaves open (`uncaBase`, `cmdLatency`). -/

namespace Sys2Proof.Config

/-- The value of the ID register: ASCII "UNCA" above the revision number 7 (R27). -/
def idValue : Word := 0x554E434100000007#64

/-- Bits of msb that stay when the version nibble msb[15:12] is removed (R32, R140). -/
def maskMsb : Word := 0xFFFFFFFFFFFF0FFF#64

/-- Bits of lsb that stay when the non-lexical variant nibble lsb[63:60] is removed (R32, R140). -/
def maskLsb : Word := 0x0FFFFFFFFFFFFFFF#64

/-- Bits of lsb that stay when the lexical variant field, lsb[63:62] and lsb[1:0], is removed (R32, R140). -/
def maskLex : Word := 0x3FFFFFFFFFFFFFFC#64

/-- The reset value of CTRL.LW (R24, R33). -/
def resetLimbWidth : BitVec 5 := 30#5

/-- The reset value of CTRL.NL: four active limbs (R24, R33). -/
def resetLimbCountMinusOne : BitVec 3 := 3#3

/-- The limb widths CTRL.LW may hold: 1 to 30 (R24). -/
def legalLimbWidth (lw : BitVec 5) : Bool := decide (1 ≤ lw.toNat) && decide (lw.toNat ≤ 30)

/-- The window is 512 bytes (R50). -/
def windowBytes : Nat := 512

/-- Which 512-byte block of the host's address map holds the window; left to the platform, so it has no value here
(R50, D3; assumption 7). -/
opaque uncaBlock : Nat

/-- `uncaBase`: any 512-byte-aligned address (R50; assumption 7). -/
def uncaBase : Nat := windowBytes * uncaBlock

/-- How many clocks beyond the first a command takes; open in the spec, so it has no value here (R5, R207; assumption 8). -/
opaque cmdLatencyBeyondOne : Nat

/-- `cmdLatency`: at least one clock; no rule depends on it (R5, R207; assumption 8). -/
def cmdLatency : Nat := 1 + cmdLatencyBeyondOne

end Sys2Proof.Config
end

