-- ==== Sys2Proof/Machine/State.lean ====
section
/-! DEFINITION. The state of UNCA as plain data: the registers of 10_state.md rules R20 to R28, and, as the model's own
fields, the host's side of the port (what it is still to send, and what it got back). -/

namespace Sys2Proof.Machine

/-- CTRL's two fields; its reserved bits read 0 and have no storage (R24). -/
structure Ctrl where
  /-- CTRL.LW, bits 4:0: the limb width. -/
  lw : BitVec 5
  /-- CTRL.NL, bits 10:8: the active limb count minus one. -/
  nl : BitVec 3
  deriving DecidableEq, Repr

/-- STATUS's fields; its reserved bits read 0 and have no storage (R25). -/
structure Status where
  /-- STATUS.ERR, bit 0. -/
  err : Bool
  /-- STATUS.OVF, bit 1. -/
  ovf : Bool
  /-- STATUS.DROP, bit 2. -/
  drop : Bool
  /-- STATUS.CAUSE, bits 15:8: none is code 0x00 (R181). -/
  cause : Option Cause
  deriving DecidableEq, Repr

/-- A read of `width` bytes, or a write of the given byte lanes, lane 0 first (R51, R53). -/
inductive AccessKind where
  | read (width : Nat)
  | write (lanes : List Byte)
  deriving DecidableEq, Repr

/-- One host access: who issues it, at which window offset (0x000 to 0x1FF), and what it does (R50, R51, R193). -/
structure Access where
  issuer : Nat
  offset : BitVec 9
  kind : AccessKind
  deriving DecidableEq, Repr

/-- What reaches the port: a host access, or the reset input, asserted while an access may be in flight (R51, R200). -/
inductive PortEvent where
  | access (a : Access)
  | reset (inFlight : Option Access)
  deriving DecidableEq, Repr

/-- What a host gets back for an access (R52, R63): read data as byte lanes, completion of a write, or a bus error. -/
inductive Response where
  | data (lanes : List Byte)
  | done
  | busError
  deriving DecidableEq, Repr

/-- A response and the host it goes to. -/
structure Reply where
  issuer : Nat
  response : Response
  deriving DecidableEq, Repr

/-- The machine. X0 is hard-wired to 0 and has no storage (R22): `xs` holds X1 to X15, entry `k` being X_(k+1). -/
structure State where
  /-- X1 to X15 (R22). -/
  xs : Vector Word 15
  /-- L0 to L7 (R23). -/
  limbs : Vector Word 8
  /-- CTRL (R24). -/
  ctrl : Ctrl
  /-- STATUS (R25). -/
  status : Status
  /-- FAULTCMD (R26). -/
  faultcmd : Word
  /-- The model's own: the port events still to come, in the order the port receives them (R51, R208; assumption 1). -/
  pending : List PortEvent
  /-- The model's own: what the hosts got back, oldest first (R52, R63; assumption 2). -/
  replies : List Reply
  deriving DecidableEq, Repr

/-- Why a step stops with a fault. There is no reason: no command and no access stops UNCA (R209: "UNCA has no halt"). A
BlockError is a next state (R182), and a bus error is the reply to one access (R52; assumption 4). Nobody raises a fault;
safe. -/
inductive Fault where
  deriving DecidableEq, Repr

/-- Why the model gives an instruction no meaning. -/
inductive Refusal where
  /-- Raised by an arm of `exec` whose instruction has no meaning yet, naming its mnemonic; safe. No arm raises it now. -/
  | notModelled (mnemonic : String)
  deriving DecidableEq, Repr

/-- What a command or a step answers. -/
abbrev Result := Host.Outcome State Fault Refusal

/-- The machine right after reset (R33, R200), with no port event to come and no reply given. -/
def State.reset : State where
  xs := Vector.replicate 15 0#64
  limbs := Vector.replicate 8 0#64
  ctrl := ⟨Config.resetLimbWidth, Config.resetLimbCountMinusOne⟩
  status := ⟨false, false, false, none⟩
  faultcmd := 0#64
  pending := []
  replies := []

end Sys2Proof.Machine
end

