-- ==== Sys2Proof/Machine/Operands.lean ====
section
/-! DEFINITION. The values commands compute with: bit fields (00_scope.md rule R6), wide products (R8), gather and
scatter (R9), the magic constant (41_cdiv.md rules R100, R101) and LDIVMOD's immediate (30_encoding.md rule R73). -/

namespace Sys2Proof.Machine

/-- `v[hi:lo]`, zero-extended to 64 bits (R6). -/
def field (v : Word) (hi lo : Nat) : Word := (v.extractLsb' lo (hi + 1 - lo)).setWidth 64

/-- `v[31:0]`, zero-extended: a narrow dividend or a divisor operand (R101 to R105, R121). -/
def low32 (v : Word) : Word := field v 31 0

/-- `mul128(a, b)[127:64]` (R8). -/
def mulhi (a b : Word) : Word := BitVec.ofNat 64 (a.toNat * b.toNat / 2 ^ 64)

/-- `mul128(a, b)[63:0]` (R8). -/
def mullo (a b : Word) : Word := BitVec.ofNat 64 (a.toNat * b.toNat % 2 ^ 64)

/-- The multiply-and-shift quotient (R102, R104, R121). -/
def fastDiv (a m : Word) : Word := mulhi a m

/-- The multiply-and-shift remainder (R103, R105, R121). -/
def fastMod (a m d : Word) : Word := mulhi (mullo a m) d

/-- `((2^64 − 1) div d) + 1`, cut to 64 bits (R101). -/
def magicConstant (d : Word) : Word := BitVec.ofNat 64 ((2 ^ 64 - 1) / d.toNat + 1)

/-- `(a · b + c) mod 2^64` (R124). -/
def multiplyAdd (a b c : Word) : Word := BitVec.ofNat 64 (a.toNat * b.toNat + c.toNat)

/-- The set bit positions of a mask, lowest first: `p_0 < p_1 < …` (R9). -/
def setPositions (m : Word) : List Nat := (List.range 64).filter fun p => m.getLsbD p

/-- `SUM over j of v[p_j] << j` for the positions `p_0, p_1, …` (R9). -/
def gatherBits (v : Word) : List Nat → Nat
  | [] => 0
  | p :: ps => (v.getLsbD p).toNat + 2 * gatherBits v ps

/-- `SUM over j of v[j] << p_j` for the positions `p_j, p_(j+1), …` (R9). -/
def scatterBits (v : Word) : Nat → List Nat → Nat
  | _, [] => 0
  | j, p :: ps => (v.getLsbD j).toNat * 2 ^ p + scatterBits v (j + 1) ps

/-- `pext(v, m)` (R9). -/
def pextWord (v m : Word) : Word := BitVec.ofNat 64 (gatherBits v (setPositions m))

/-- `pdep(v, m)` (R9). -/
def pdepWord (v m : Word) : Word := BitVec.ofNat 64 (scatterBits v 0 (setPositions m))

/-- `first`: LDIVMOD's first significant limb, IMM8[2:0], neither scaled nor sign-extended (R73). -/
def firstLimb (imm8 : BitVec 8) : Nat := (imm8.extractLsb' 0 3).toNat

end Sys2Proof.Machine
end

