-- ==== Sys2Proof/Machine/Flags.lean ====
section
/-! DEFINITION. CTRL and STATUS as registers: what they read, what a host write does to them, and the OVF flag
(10_state.md rules R24, R25, R29, R30; 42_mlbc.md rule R122; 60_exceptions.md rule R181). -/

namespace Sys2Proof.Machine

/-- N, the active limb count: CTRL.NL + 1 (R24). -/
def Ctrl.limbCount (c : Ctrl) : Nat := c.nl.toNat + 1

/-- LW, the limb width in bits (R24). -/
def Ctrl.limbWidth (c : Ctrl) : Nat := c.lw.toNat

/-- What a read of CTRL returns: LW in bits 4:0, NL in bits 10:8, the rest 0 (R24). -/
def Ctrl.word (c : Ctrl) : Word := (0#53 ++ c.nl ++ 0#3 ++ c.lw : BitVec (53 + 3 + 3 + 5))

/-- A host write of `v` to CTRL (R30): NL takes v[10:8]; LW takes v[4:0] when that is a legal width. -/
def Ctrl.written (c : Ctrl) (v : Word) : Ctrl where
  nl := v.extractLsb' 8 3
  lw := if Config.legalLimbWidth (v.extractLsb' 0 5) then v.extractLsb' 0 5 else c.lw

/-- STATUS.CAUSE: 0x00 when no error is recorded (R181). -/
def Status.causeCode (st : Status) : BitVec 8 :=
  match st.cause with
  | none => 0x00#8
  | some c => c.code

/-- What a read of STATUS returns: CAUSE in bits 15:8, DROP, OVF, ERR in bits 2, 1, 0, the rest 0 (R25). -/
def Status.word (st : Status) : Word :=
  (0#48 ++ st.causeCode ++ 0#5 ++ BitVec.ofBool st.drop ++ BitVec.ofBool st.ovf ++ BitVec.ofBool st.err :
    BitVec (48 + 8 + 5 + 1 + 1 + 1))

/-- ERR and CAUSE as error entry leaves them (R182). -/
def Status.withError (st : Status) (c : Cause) : Status := { st with err := true, cause := some c }

/-- ERR and CAUSE as an error return leaves them (R29, R185). -/
def Status.withoutError (st : Status) : Status := { st with err := false, cause := none }

/-- DROP set (R184). -/
def Status.withDrop (st : Status) : Status := { st with drop := true }

/-- DROP cleared (R29). -/
def Status.withoutDrop (st : Status) : Status := { st with drop := false }

/-- OVF cleared (R29). -/
def Status.withoutOvf (st : Status) : Status := { st with ovf := false }

/-- OVF after LMULADD with carry out `c`: set when `c ≠ 0`, else as before; a command never clears it (R122). -/
def Status.withCarry (st : Status) (c : Word) : Status := { st with ovf := st.ovf || c != 0#64 }

end Sys2Proof.Machine
end

