-- ==== Sys2Proof/Machine/Ops.lean ====
section
/-! DEFINITION. The named operations over registers, limbs and the error record (00_scope.md rule R7; 10_state.md rules
R22, R23, R29, R30; 60_exceptions.md rules R182, R184, R185). Taking a BlockError is `raiseBlockError`, and the return from
one is `clearError`. -/

namespace Sys2Proof.Machine

/-! ### Data registers (R7, R22) -/

/-- `x[r]`: X0 reads 0 (R22). -/
def State.readX (s : State) (r : Reg) : Word := if r = 0#4 then 0#64 else s.xs[r.toNat - 1]?.getD 0#64

/-- `x[r] <- v`: a write to X0 is discarded (R22). -/
def State.writeX (s : State) (r : Reg) (v : Word) : State :=
  if r = 0#4 then s else { s with xs := s.xs.setIfInBounds (r.toNat - 1) v }

/-! ### Limbs (R7, R23) -/

/-- `L[j]` of a limb file, for j from 0 to 7 (R23). -/
def limbAt (limbs : Vector Word 8) (j : Nat) : Word := limbs[j]?.getD 0#64

/-- A limb file after `L[j] <- v`, for j from 0 to 7 (R23). -/
def withLimb (limbs : Vector Word 8) (j : Nat) (v : Word) : Vector Word 8 := limbs.setIfInBounds j v

/-- `L[j]` (R7). -/
def State.readLimb (s : State) (j : LimbIndex) : Word := limbAt s.limbs j.val

/-- `L[j] <- v` (R7). -/
def State.writeLimb (s : State) (j : LimbIndex) (v : Word) : State := { s with limbs := withLimb s.limbs j.val v }

/-- The whole limb file replaced, as LDIVMOD, LMULADD and LPACK do. -/
def State.withLimbs (s : State) (limbs : Vector Word 8) : State := { s with limbs := limbs }

/-! ### CTRL and STATUS -/

/-- A host write to CTRL (R30). -/
def State.writeCtrl (s : State) (v : Word) : State := { s with ctrl := s.ctrl.written v }

/-- OVF after a carry out (R122). -/
def State.noteCarry (s : State) (c : Word) : State := { s with status := s.status.withCarry c }

/-- Error entry (R182): ERR set, CAUSE and FAULTCMD take the cause and the 64-bit CMD value, and nothing else changes. -/
def raiseBlockError (c : Cause) (w : Word) (s : State) : State :=
  { s with status := s.status.withError c, faultcmd := w }

/-- Error return (R29, R185): ERR, CAUSE and FAULTCMD cleared, and nothing restored. -/
def clearError (s : State) : State := { s with status := s.status.withoutError, faultcmd := 0#64 }

/-- A CMD write while ERR = 1 (R184): DROP set and nothing else. -/
def discardCommand (s : State) : State := { s with status := s.status.withDrop }

/-- OVF cleared by the host (R29). -/
def clearOvf (s : State) : State := { s with status := s.status.withoutOvf }

/-- DROP cleared by the host (R29). -/
def clearDrop (s : State) : State := { s with status := s.status.withoutDrop }

/-- `f s` when `b`, else `s`. -/
def applyIf (b : Bool) (f : State → State) (s : State) : State := if b then f s else s

/-- A host write of `v` to STATUS (R29): bit 0 returns from the error, bit 1 clears OVF, bit 2 clears DROP; the other
bits are ignored. -/
def State.writeStatus (s : State) (v : Word) : State :=
  applyIf (v.getLsbD 2) clearDrop (applyIf (v.getLsbD 1) clearOvf (applyIf (v.getLsbD 0) clearError s))

/-! ### Replies (R52, R63) -/

/-- The host gets a response back. -/
def State.answer (s : State) (issuer : Nat) (r : Response) : State := { s with replies := s.replies ++ [⟨issuer, r⟩] }

end Sys2Proof.Machine
end

