-- ==== Sys2Proof/Machine/Bfx.lean ====
section
/-! DEFINITION. The commands of BFX, the UUID bit-field extractor and inserter (43_bfx.md). None writes a flag or a limb,
raises an error or validates a field (R155). -/

namespace Sys2Proof.Machine

/-- CMPMSB: msb without its version nibble (R142). -/
def execCmpmsb (rd ra : Reg) (s : State) : Result := .next (s.writeX rd (pextWord (s.readX ra) Config.maskMsb))

/-- EXPMSB: a 60-bit half back to msb, version `x[rb][3:0]` inserted at bits 15:12 (R143). -/
def execExpmsb (rd ra rb : Reg) (s : State) : Result :=
  .next (s.writeX rd (pdepWord (s.readX ra) Config.maskMsb ||| (field (s.readX rb) 3 0 <<< 12)))

/-- CMPLSB: lsb without its top nibble (R145). -/
def execCmplsb (rd ra : Reg) (s : State) : Result := .next (s.writeX rd (pextWord (s.readX ra) Config.maskLsb))

/-- EXPLSB: a 60-bit half back to lsb, nibble `x[rb][3:0]` inserted at bits 63:60 (R146). -/
def execExplsb (rd ra rb : Reg) (s : State) : Result :=
  .next (s.writeX rd (pdepWord (s.readX ra) Config.maskLsb ||| (field (s.readX rb) 3 0 <<< 60)))

/-- CMPLEX: lsb without its lexical variant field (R148). -/
def execCmplex (rd ra : Reg) (s : State) : Result := .next (s.writeX rd (pextWord (s.readX ra) Config.maskLex))

/-- EXPLEX: a 60-bit half back to lsb, lexical field `x[rb][3:0]` scattered to bits 63:62 and 1:0 (R149). -/
def execExplex (rd ra rb : Reg) (s : State) : Result :=
  .next (s.writeX rd
    (pdepWord (s.readX ra) Config.maskLex ||| pdepWord (field (s.readX rb) 3 0) (~~~Config.maskLex)))

/-- GETVER: the version field, bits 15:12 of msb (R151). -/
def execGetver (rd ra : Reg) (s : State) : Result := .next (s.writeX rd (field (s.readX ra) 15 12))

/-- GETVAR: the 2-bit variant, bits 63:62 of lsb (R152). -/
def execGetvar (rd ra : Reg) (s : State) : Result := .next (s.writeX rd (field (s.readX ra) 63 62))

/-- GETVARLEX: the lexical variant field, bits 63:62 above bits 1:0 of lsb (R153). -/
def execGetvarlex (rd ra : Reg) (s : State) : Result :=
  .next (s.writeX rd ((field (s.readX ra) 63 62 <<< 2) ||| field (s.readX ra) 1 0))

/-- GETVARN: the non-lexical variant nibble, bits 63:60 of lsb (R154). -/
def execGetvarn (rd ra : Reg) (s : State) : Result := .next (s.writeX rd (field (s.readX ra) 63 60))

/-- PEXT: gather over any mask (R156). -/
def execPext (rd ra rb : Reg) (s : State) : Result := .next (s.writeX rd (pextWord (s.readX ra) (s.readX rb)))

/-- PDEP: scatter over any mask (R157). -/
def execPdep (rd ra rb : Reg) (s : State) : Result := .next (s.writeX rd (pdepWord (s.readX ra) (s.readX rb)))

end Sys2Proof.Machine
end

