-- ==== Sys2Proof/Machine/Cdiv.lean ====
section
/-! DEFINITION. The commands of CDIV, the constant-divisor multiply-and-shift divider (41_cdiv.md). Each computes its
formula for every input: no range check, no flag, and no error but MAGIC's (R11, R111). -/

namespace Sys2Proof.Machine

/-- MAGIC: the magic constant of `x[ra][31:0]`; divisors 0 and 1 are errors, checked also when RD = 0 (R101). -/
def execMagic (rd ra : Reg) (s : State) : Result :=
  let d := low32 (s.readX ra)
  if d = 0#64 then .next (raiseBlockError .divisorZero (cmdValue (.magic rd ra)) s)
  else if d = 1#64 then .next (raiseBlockError .magicRange (cmdValue (.magic rd ra)) s)
  else .next (s.writeX rd (magicConstant d))

/-- FDIVN: the narrow quotient (R102). -/
def execFdivn (rd ra rb : Reg) (s : State) : Result :=
  .next (s.writeX rd (fastDiv (low32 (s.readX ra)) (s.readX rb)))

/-- FMODN: the narrow remainder (R103). -/
def execFmodn (rd ra rb rc : Reg) (s : State) : Result :=
  .next (s.writeX rd (fastMod (low32 (s.readX ra)) (s.readX rb) (low32 (s.readX rc))))

/-- FDIVW: the widened quotient (R104). -/
def execFdivw (rd ra rb : Reg) (s : State) : Result :=
  .next (s.writeX rd (fastDiv (s.readX ra) (s.readX rb)))

/-- FMODW: the widened remainder (R105). -/
def execFmodw (rd ra rb rc : Reg) (s : State) : Result :=
  .next (s.writeX rd (fastMod (s.readX ra) (s.readX rb) (low32 (s.readX rc))))

end Sys2Proof.Machine
end

