-- ==== Sys2Proof/Machine/Control.lean ====
section
/-! DEFINITION. The control command (44_control.md). -/

namespace Sys2Proof.Machine

/-- NOP: nothing (R170). -/
def execNop (s : State) : Result := .next s

end Sys2Proof.Machine
end

