-- ==== Sys2Proof/Machine/Mlbc.lean ====
section
/-! DEFINITION. The commands of MLBC, the multi-limb base converter (42_mlbc.md). -/

namespace Sys2Proof.Machine

/-- `temp` of one step of LDIVMOD: `((rem << LW) + L[i]) mod 2^64` (R121). -/
def divTemp (lw : Nat) (rem limb : Word) : Word := BitVec.ofNat 64 (rem.toNat * 2 ^ lw + limb.toNat)

/-- LDIVMOD's loop over limbs k−1 down to 0, entered with remainder `rem`: the limb file and the remainder it ends with
(R121). -/
def divLoop (lw : Nat) (d m : Word) : Nat → Vector Word 8 → Word → Vector Word 8 × Word
  | 0, limbs, rem => (limbs, rem)
  | k + 1, limbs, rem =>
    let temp := divTemp lw rem (limbAt limbs k)
    divLoop lw d m k (withLimb limbs k (fastDiv temp m)) (fastMod temp m d)

/-- LDIVMOD: a pass of long division over limbs `first` down to 0, remainder to `rd`; `first ≥ N` is an error that writes
nothing (R121). -/
def execLdivmod (rd rb rc : Reg) (imm8 : BitVec 8) (s : State) : Result :=
  if s.ctrl.limbCount ≤ firstLimb imm8 then
    .next (raiseBlockError .limbIndex (cmdValue (.ldivmod rd rb rc imm8)) s)
  else
    let pass := divLoop s.ctrl.limbWidth (low32 (s.readX rb)) (s.readX rc) (firstLimb imm8 + 1) s.limbs 0#64
    .next ((s.withLimbs pass.1).writeX rd pass.2)

/-- LMULADD's loop over `n` limbs from limb `i` up, entered with carry `c`: the limb file and the carry it ends with; the
product and sum are exact, and only the parts kept are cut (R122). -/
def mulAddLoop (lw : Nat) (r : Word) : Nat → Nat → Vector Word 8 → Word → Vector Word 8 × Word
  | 0, _, limbs, c => (limbs, c)
  | n + 1, i, limbs, c =>
    let t := (limbAt limbs i).toNat * r.toNat + c.toNat
    mulAddLoop lw r n (i + 1) (withLimb limbs i (BitVec.ofNat 64 (t % 2 ^ lw))) (BitVec.ofNat 64 (t / 2 ^ lw))

/-- LMULADD: multiply the limbs by `x[ra]` and add `x[rb]`, carry out to `rd`, OVF set when it is nonzero (R122). -/
def execLmuladd (rd ra rb : Reg) (s : State) : Result :=
  let out := mulAddLoop s.ctrl.limbWidth (s.readX ra) s.ctrl.limbCount 0 s.limbs (s.readX rb)
  .next (((s.withLimbs out.1).writeX rd out.2).noteCarry out.2)

/-- MADD: the 64-bit multiply-add (R124). -/
def execMadd (rd ra rb rc : Reg) (s : State) : Result :=
  .next (s.writeX rd (multiplyAdd (s.readX ra) (s.readX rb) (s.readX rc)))

/-- The limb file holding a payload of two 60-bit halves as four 30-bit limbs, limbs 4 to 7 zero (R125). -/
def packedLimbs (hi lo : Word) : Vector Word 8 :=
  #v[field lo 29 0, field lo 59 30, field hi 29 0, field hi 59 30, 0#64, 0#64, 0#64, 0#64]

/-- LPACK: the payload of `x[ra]` (high half) and `x[rb]` (low half) to the limbs; CTRL is neither read nor changed (R125). -/
def execLpack (ra rb : Reg) (s : State) : Result := .next (s.withLimbs (packedLimbs (s.readX ra) (s.readX rb)))

/-- `{upper[29:0], lower[29:0]}`, zero-extended (R126, R127). -/
def joinedHalf (upper lower : Word) : Word :=
  (upper.extractLsb' 0 30 ++ lower.extractLsb' 0 30 : BitVec (30 + 30)).setWidth 64

/-- LHI: the high half back from limbs 3 and 2 (R126). -/
def execLhi (rd : Reg) (s : State) : Result := .next (s.writeX rd (joinedHalf (s.readLimb 3) (s.readLimb 2)))

/-- LLO: the low half back from limbs 1 and 0 (R127). -/
def execLlo (rd : Reg) (s : State) : Result := .next (s.writeX rd (joinedHalf (s.readLimb 1) (s.readLimb 0)))

end Sys2Proof.Machine
end

