-- ==== Sys2Proof/Machine/Dispatch.lean ====
section
/-! DEFINITION. One arm per command: each calls its own meaning. -/

namespace Sys2Proof.Machine

def exec (i : Instr) (s : State) : Host.Outcome State Fault Refusal :=
  match i with
  | .nop => Sys2Proof.Machine.execNop s
  | .magic rd ra => Sys2Proof.Machine.execMagic rd ra s
  | .fdivn rd ra rb => Sys2Proof.Machine.execFdivn rd ra rb s
  | .fmodn rd ra rb rc => Sys2Proof.Machine.execFmodn rd ra rb rc s
  | .fdivw rd ra rb => Sys2Proof.Machine.execFdivw rd ra rb s
  | .fmodw rd ra rb rc => Sys2Proof.Machine.execFmodw rd ra rb rc s
  | .ldivmod rd rb rc imm8 => Sys2Proof.Machine.execLdivmod rd rb rc imm8 s
  | .lmuladd rd ra rb => Sys2Proof.Machine.execLmuladd rd ra rb s
  | .madd rd ra rb rc => Sys2Proof.Machine.execMadd rd ra rb rc s
  | .lpack ra rb => Sys2Proof.Machine.execLpack ra rb s
  | .lhi rd => Sys2Proof.Machine.execLhi rd s
  | .llo rd => Sys2Proof.Machine.execLlo rd s
  | .cmpmsb rd ra => Sys2Proof.Machine.execCmpmsb rd ra s
  | .expmsb rd ra rb => Sys2Proof.Machine.execExpmsb rd ra rb s
  | .cmplsb rd ra => Sys2Proof.Machine.execCmplsb rd ra s
  | .explsb rd ra rb => Sys2Proof.Machine.execExplsb rd ra rb s
  | .cmplex rd ra => Sys2Proof.Machine.execCmplex rd ra s
  | .explex rd ra rb => Sys2Proof.Machine.execExplex rd ra rb s
  | .getver rd ra => Sys2Proof.Machine.execGetver rd ra s
  | .getvar rd ra => Sys2Proof.Machine.execGetvar rd ra s
  | .getvarlex rd ra => Sys2Proof.Machine.execGetvarlex rd ra s
  | .getvarn rd ra => Sys2Proof.Machine.execGetvarn rd ra s
  | .pext rd ra rb => Sys2Proof.Machine.execPext rd ra rb s
  | .pdep rd ra rb => Sys2Proof.Machine.execPdep rd ra rb s

end Sys2Proof.Machine
end

