-- ==== Sys2Proof/Machine/Window.lean ====
section
/-! DEFINITION. The host window (20_memory.md rules R50 to R56): which accesses are admitted, which register stands at an
offset, what a read returns, and what a write to any register but CMD does. -/

namespace Sys2Proof.Machine

/-- The registers of the window (R54). -/
inductive Slot where
  | id
  | ctrl
  | status
  | cmd
  | faultcmd
  | x (r : Reg)
  | limb (j : LimbIndex)
  deriving DecidableEq, Repr

/-- The register at a window offset; none for a misaligned or reserved offset (R52, R54, R55). -/
def slotAt (offset : BitVec 9) : Option Slot :=
  let off := offset.toNat
  if off % 8 ≠ 0 then none
  else if off = 0x000 then some .id
  else if off = 0x008 then some .ctrl
  else if off = 0x010 then some .status
  else if off = 0x018 then some .cmd
  else if off = 0x020 then some .faultcmd
  else if 0x080 ≤ off ∧ off ≤ 0x0F8 then some (.x (BitVec.ofNat 4 ((off - 0x080) / 8)))
  else if 0x100 ≤ off ∧ off ≤ 0x138 then some (.limb (Fin.ofNat 8 ((off - 0x100) / 8)))
  else none

/-- The offset of a register (R54). -/
def Slot.offset : Slot → BitVec 9
  | .id => 0x000#9
  | .ctrl => 0x008#9
  | .status => 0x010#9
  | .cmd => 0x018#9
  | .faultcmd => 0x020#9
  | .x r => BitVec.ofNat 9 (0x080 + 8 * r.toNat)
  | .limb j => BitVec.ofNat 9 (0x100 + 8 * j.val)

/-- How many bytes an access moves. -/
def AccessKind.width : AccessKind → Nat
  | .read n => n
  | .write lanes => lanes.length

/-- The register an access reaches; none when the port does not admit it: another width than 8 bytes, or a misaligned or
reserved offset (R52, R55). -/
def admittedSlot (a : Access) : Option Slot := if a.kind.width = 8 then slotAt a.offset else none

/-- What a host read of a register returns (R54); CMD reads 0 (R28). -/
def readSlot (slot : Slot) (s : State) : Word :=
  match slot with
  | .id => Config.idValue
  | .ctrl => s.ctrl.word
  | .status => s.status.word
  | .cmd => 0#64
  | .faultcmd => s.faultcmd
  | .x r => s.readX r
  | .limb j => s.readLimb j

/-- A host write of `v` to ID (R27): ignored. -/
def writeId (_v : Word) (s : State) : State := s

/-- A host write of `v` to FAULTCMD (R26): ignored. -/
def writeFaultcmd (_v : Word) (s : State) : State := s

/-- `MemRead(offset, 8)` by a host (R51). -/
def memRead (issuer : Nat) (offset : BitVec 9) : PortEvent := .access ⟨issuer, offset, .read 8⟩

/-- `MemWrite(offset, 8, v)` by a host (R51), its lanes little-endian (R53). -/
def memWrite (issuer : Nat) (offset : BitVec 9) (v : Word) : PortEvent :=
  .access ⟨issuer, offset, .write (lanesOfWord v)⟩

/-- `CMD`: a host write of `w` to CMD (R28, R78). -/
def cmdWrite (issuer : Nat) (w : Word) : PortEvent := memWrite issuer Slot.cmd.offset w

/-- The window offset a host address reaches, when it lies in the window (R50; assumption 7). -/
def windowOffset (address : Nat) : Option (BitVec 9) :=
  if Config.uncaBase ≤ address ∧ address < Config.uncaBase + Config.windowBytes then
    some (BitVec.ofNat 9 (address - Config.uncaBase))
  else none

/-- The host address of byte lane `lane` of the access at `offset` (R53; assumption 7). -/
def laneAddress (offset : BitVec 9) (lane : Nat) : Nat := Config.uncaBase + offset.toNat + lane

end Sys2Proof.Machine
end

