-- ==== Sys2Proof/Machine/Port.lean ====
section
/-! DEFINITION. The port: submitting a command, performing a host access with its reply, and reset (20_memory.md rules R51,
R57, R58, R63; 30_encoding.md rule R77; 60_exceptions.md rules R182, R184; 70_reset_and_hazards.md rules R200, R203). -/

namespace Sys2Proof.Machine

/-- A host write of `w` to CMD: discarded while ERR = 1 (R184), else decoded (R77) and executed, or the decode error
taken (R182). -/
def submitCommand (w : Word) (s : State) : Result :=
  if s.status.err then .next (discardCommand s)
  else
    match decode w with
    | .error c => .next (raiseBlockError c w s)
    | .command i => exec i s

/-- A host write of `v` to a register (R54). -/
def writeSlot (slot : Slot) (v : Word) (s : State) : Result :=
  match slot with
  | .id => .next (writeId v s)
  | .ctrl => .next (s.writeCtrl v)
  | .status => .next (s.writeStatus v)
  | .cmd => submitCommand v s
  | .faultcmd => .next (writeFaultcmd v s)
  | .x r => .next (s.writeX r v)
  | .limb j => .next (s.writeLimb j v)

/-- The reply goes back after the whole effect (R203). -/
def thenAnswer (issuer : Nat) (r : Response) : Result → Result
  | .next s => .next (s.answer issuer r)
  | .fault f => .fault f
  | .refused q => .refused q

/-- One host access, with its reply (R52, R57, R63). A bus error changes nothing but the reply (assumption 4). -/
def performAccess (a : Access) (s : State) : Result :=
  match admittedSlot a with
  | none => .next (s.answer a.issuer .busError)
  | some slot =>
    match a.kind with
    | .read _ => .next (s.answer a.issuer (.data (lanesOfWord (readSlot slot s))))
    | .write lanes => thenAnswer a.issuer .done (writeSlot slot (wordOfLanes lanes) s)

/-- Reset (R200): every register takes its reset value; what the environment is still to send, and the replies already
given, are not the block's (assumption 3). -/
def performReset (s : State) : State := { State.reset with pending := s.pending, replies := s.replies }

/-- One event at the port. An access in flight at reset gets no reply and leaves no trace (R200). -/
def performEvent (e : PortEvent) (s : State) : Result :=
  match e with
  | .access a => performAccess a s
  | .reset _ => .next (performReset s)

end Sys2Proof.Machine
end

