-- ==== Sys2Proof/Machine/Step.lean ====
section
/-! DEFINITION. One step: the next event at the port, taken whole before the one after it (20_memory.md rules R51, R58). -/

namespace Sys2Proof.Machine

/-- The port takes its next event. With none to take, nothing happens: UNCA does nothing on its own (R186, R209;
assumption 1). -/
def step (s : State) : Host.Outcome State Fault Refusal :=
  match s.pending with
  | [] => .next s
  | e :: rest => performEvent e { s with pending := rest }

/-- `s` with a host write of the `nbits`-bit word `w` to CMD as the very next event: a command comes to UNCA only so
(R28, R61; assumption 9). -/
def State.withFetchWord (s : State) (nbits w : Nat) : State :=
  { s with pending := cmdWrite 0 (BitVec.ofNat 64 (w % 2 ^ nbits)) :: s.pending }

end Sys2Proof.Machine
end

