-- ==== Sys2Proof/Safety.lean ====
section
/-! DEFINITION. The terms claims about UNCA are stated in: what one command or access changes and keeps, the invariant of
the machine, the numbers a limb file and a magic constant stand for, and runs of several commands. -/

namespace Sys2Proof.Machine

/-! ### What changes and what stays -/

/-- Every data register reads as before. -/
def SameX (s t : State) : Prop := ∀ r, t.readX r = s.readX r

/-- Every limb reads as before. -/
def SameLimbs (s t : State) : Prop := ∀ j, t.readLimb j = s.readLimb j

/-- The port is where it was: no event taken, no reply given. -/
def PortKept (s t : State) : Prop := t.pending = s.pending ∧ t.replies = s.replies

/-- The port took one event: `rest` is still to come, and the host `issuer` got the response `r`. -/
def PortServed (rest : List PortEvent) (issuer : Nat) (r : Response) (s t : State) : Prop :=
  t.pending = rest ∧ t.replies = s.replies ++ [⟨issuer, r⟩]

/-- `x[rd] <- v`, every other data register as before; for X0 nothing is written (R22). -/
def WritesX (rd : Reg) (v : Word) (s t : State) : Prop :=
  ∀ r, t.readX r = if r = rd ∧ rd ≠ 0#4 then v else s.readX r

/-- `x[rd] <- v` and nothing else: no other register, no limb, no flag, not CTRL, not FAULTCMD, not the port. -/
def WritesOnlyX (rd : Reg) (v : Word) (s t : State) : Prop :=
  WritesX rd v s t ∧ SameLimbs s t ∧ t.ctrl = s.ctrl ∧ t.status = s.status ∧ t.faultcmd = s.faultcmd ∧ PortKept s t

/-- Error entry (R182): ERR = 1, CAUSE = `c`, FAULTCMD = `w`; no data register, no limb, not CTRL, not OVF, not DROP. The
port is not part of it. -/
def ErrorEntered (c : Cause) (w : Word) (s t : State) : Prop :=
  t.status.err = true ∧ t.status.cause = some c ∧ t.faultcmd = w ∧
    SameX s t ∧ SameLimbs s t ∧ t.ctrl = s.ctrl ∧ t.status.ovf = s.status.ovf ∧ t.status.drop = s.status.drop

/-- Every register of the block reads as before; the port is not part of it. -/
def BlockKept (s t : State) : Prop :=
  SameX s t ∧ SameLimbs s t ∧ t.ctrl = s.ctrl ∧ t.status = s.status ∧ t.faultcmd = s.faultcmd

/-! ### The invariant -/

/-- The causes a decoded command may record (R181). -/
def ownCauses : Instr → List Cause
  | .nop => []
  | .magic _ _ => [.divisorZero, .magicRange]
  | .fdivn _ _ _ => []
  | .fmodn _ _ _ _ => []
  | .fdivw _ _ _ => []
  | .fmodw _ _ _ _ => []
  | .ldivmod _ _ _ _ => [.limbIndex]
  | .lmuladd _ _ _ => []
  | .madd _ _ _ _ => []
  | .lpack _ _ => []
  | .lhi _ => []
  | .llo _ => []
  | .cmpmsb _ _ => []
  | .expmsb _ _ _ => []
  | .cmplsb _ _ => []
  | .explsb _ _ _ => []
  | .cmplex _ _ => []
  | .explex _ _ _ => []
  | .getver _ _ => []
  | .getvar _ _ => []
  | .getvarlex _ _ => []
  | .getvarn _ _ => []
  | .pext _ _ _ => []
  | .pdep _ _ _ => []

/-- The CMD value `w` is one that can record the cause `c` (R181). -/
def CanRecord (w : Word) (c : Cause) : Prop :=
  match decode w with
  | .error e => c = e
  | .command i => c ∈ ownCauses i

/-- CTRL.LW holds a legal width, 1 to 30 (R24). -/
def LegalCtrl (s : State) : Prop := 1 ≤ s.ctrl.lw.toNat ∧ s.ctrl.lw.toNat ≤ 30

/-- The error record is whole: with ERR = 1 a cause is recorded that FAULTCMD's value can record, and with ERR = 0 both
CAUSE and FAULTCMD are clear (R25, R26, R29, R181). -/
def ErrorRecordSound (s : State) : Prop :=
  if s.status.err then ∃ c, s.status.cause = some c ∧ CanRecord s.faultcmd c
  else s.status.cause = none ∧ s.faultcmd = 0#64

/-- The invariant of the machine. -/
def BlockInv (s : State) : Prop := LegalCtrl s ∧ ErrorRecordSound s

/-! ### Encodings -/

/-- The 232 unassigned opcodes (R76). -/
def UnassignedOpcode (w : Word) : Prop :=
  (0x01 ≤ w.toNat % 256 ∧ w.toNat % 256 ≤ 0x0F) ∨ (0x15 ≤ w.toNat % 256 ∧ w.toNat % 256 ≤ 0x1F) ∨
    (0x26 ≤ w.toNat % 256 ∧ w.toNat % 256 ≤ 0x2F) ∨ (0x3C ≤ w.toNat % 256 ∧ w.toNat % 256 ≤ 0xFF)

/-- The access is not one the port admits (R52, R55): another width than 8 bytes, a misaligned offset, or a reserved one. -/
def NotAdmitted (a : Access) : Prop :=
  a.kind.width ≠ 8 ∨ a.offset.toNat % 8 ≠ 0 ∨ (0x028 ≤ a.offset.toNat ∧ a.offset.toNat ≤ 0x07F) ∨
    (0x140 ≤ a.offset.toNat ∧ a.offset.toNat ≤ 0x1FF)

/-! ### Numbers -/

/-- `M(d) = ceil(2^64 / d)` (R100). -/
def magicNat (d : Nat) : Nat := (2 ^ 64 + (d - 1)) / d

/-- `e(d) = M(d)·d − 2^64` (R100). -/
def errorTerm (d : Nat) : Nat := magicNat d * d - 2 ^ 64

/-- `SUM over j in 0..n−1 of L[j]·2^(lw·j)` (R23, R120). -/
def limbSum (lw : Nat) (limbs : Vector Word 8) : Nat → Nat
  | 0 => 0
  | n + 1 => limbSum lw limbs n + (limbAt limbs n).toNat * 2 ^ (lw * n)

/-- The value V of the active limbs (R120). -/
def limbValue (s : State) : Nat := limbSum s.ctrl.limbWidth s.limbs s.ctrl.limbCount

/-- The limb value is well-formed: every active limb is below 2^LW (R120). -/
def LimbsWellFormed (s : State) : Prop :=
  ∀ j : LimbIndex, j.val < s.ctrl.limbCount → (s.readLimb j).toNat < 2 ^ s.ctrl.limbWidth

/-- How many set bits of a mask lie below position `p`. -/
def maskRank (m : Word) (p : Nat) : Nat := ((List.range p).filter fun i => m.getLsbD i).length

/-- `T_k` of the Horner accumulation, from digits most significant first (R123). -/
def hornerValue (radix : Nat) (digits : List Word) : Nat := digits.foldl (fun acc c => acc * radix + c.toNat) 0

/-! ### Runs of several commands -/

/-- Commands executed one after another. -/
def execAll : List Instr → State → Result
  | [], s => .next s
  | i :: rest, s =>
    match exec i s with
    | .next t => execAll rest t
    | .fault f => .fault f
    | .refused q => .refused q

/-- For each digit in turn, the host writes it to `x[rb]` and submits `LMULADD rd, ra, rb` (R123, R130). -/
def hornerRun (rd ra rb : Reg) : List Word → State → Result
  | [], s => .next s
  | c :: rest, s =>
    match exec (.lmuladd rd ra rb) (s.writeX rb c) with
    | .next t => hornerRun rd ra rb rest t
    | .fault f => .fault f
    | .refused q => .refused q

/-- `n` executions of one command, with `x[rd]` read after each; none if one of them stops. -/
def collectRun (i : Instr) (rd : Reg) : Nat → State → Option (List Word × State)
  | 0, s => some ([], s)
  | n + 1, s =>
    match exec i s with
    | .next t => (collectRun i rd n t).map fun p => (t.readX rd :: p.1, p.2)
    | .fault _ => none
    | .refused _ => none

end Sys2Proof.Machine
end

