-- ==== Sys2Proof/Certificates/Slice0/Obligations.lean ====
section
/-! DEFINITION. The statements about UNCA, each formalising a rule of the spec or deriving from a section of it. -/

open Sys2Proof Sys2Proof.Machine

/-! ## Reset and the invariant -/

/-- R33: what every register reads right after reset. -/
def Obligations.ResetValues : Prop :=
  (∀ r, State.reset.readX r = 0#64) ∧ (∀ j, State.reset.readLimb j = 0#64) ∧
    State.reset.ctrl.limbWidth = 30 ∧ State.reset.ctrl.limbCount = 4 ∧
    readSlot .ctrl State.reset = 0x31E ∧ readSlot .status State.reset = 0 ∧ readSlot .faultcmd State.reset = 0 ∧
    readSlot .id State.reset = 0x554E434100000007 ∧ readSlot .cmd State.reset = 0

/-- R200: from any state, whatever access is in flight, an assertion of reset leaves every register at its reset value,
and no host gets a completion. That the events still to come stay is the model's choice (assumption 3). -/
def Obligations.ResetEventClearsBlock : Prop :=
  ∀ (s : State) (inFlight : Option Access) (rest : List PortEvent), s.pending = .reset inFlight :: rest →
    ∃ t, step s = .next t ∧ BlockKept State.reset t ∧ t.pending = rest ∧ t.replies = s.replies

/-- Reset meets the invariant. -/
def Obligations.InvariantAtReset : Prop := BlockInv State.reset

/-- Every step keeps the invariant: CTRL.LW stays a legal width, and the error record stays whole (R24, R25, R26, R29,
R30, R182). -/
def Obligations.StepKeepsInvariant : Prop := ∀ s t, BlockInv s → step s = .next t → BlockInv t

/-- No command and no access stops UNCA, from any state (R209: "UNCA has no halt"). An idle port's step is the model's
choice (assumption 1). -/
def Obligations.StepNeverStops : Prop := ∀ s, ∃ t, step s = .next t ∧ (s.pending = [] → t = s)

/-! ## Encoding -/

/-- Decoding the CMD value of a well-formed command gives it back, for every operand of every command. -/
def Obligations.DecodeOfEncode : Prop := ∀ i : Instr, i.wellFormed = true → decode (cmdValue i) = .command i

/-- R74: no encoding has two spellings: the CMD value a command decodes from is the command's own. -/
def Obligations.EncodeOfDecode : Prop := ∀ w i, decode w = .command i → i.wellFormed = true ∧ cmdValue i = w

/-- R74, R76, R77: a CMD value decodes to an illegal opcode exactly when its opcode is one of the unassigned ones, and to a
reserved field exactly when its opcode is assigned and it is the CMD value of no well-formed command. -/
def Obligations.DecodeErrorsExactly : Prop :=
  ∀ w, (decode w = .error .illegalOpcode ↔ UnassignedOpcode w) ∧
    (decode w = .error .reservedField ↔ ¬ UnassignedOpcode w ∧ ∀ i : Instr, i.wellFormed = true → cmdValue i ≠ w) ∧
    (∀ c, decode w = .error c → c = .illegalOpcode ∨ c = .reservedField)

/-- Words written out from the encodings of R75, one for each unit, and refused ones. -/
def Obligations.DecodedWords : Prop :=
  decode 0x00000000 = .command .nop ∧ decode 0x00001210 = .command (.magic 2 1) ∧
    decode 0x00421312 = .command (.fmodn 3 1 2 4) ∧ decode 0x03430520 = .command (.ldivmod 5 3 4 3) ∧
    decode 0x00021023 = .command (.lpack 1 2) ∧ decode 0x00063A31 = .command (.expmsb 10 3 6) ∧
    decode 0x000DEF3B = .command (.pdep 15 14 13) ∧ decode 0x1000000FF = .error .illegalOpcode ∧
    decode 0x100000010 = .error .reservedField ∧ decode 0x08000020 = .error .reservedField

/-- R78: an assembler line of a well-formed command assembles to it, and a line assembles to nothing but a well-formed
command whose line it is. -/
def Obligations.AssembleInvertsDisassemble : Prop :=
  (∀ i : Instr, i.wellFormed = true → assemble (disassemble i) = some i) ∧
    ∀ l i, assemble l = some i → i.wellFormed = true ∧ disassemble i = l

/-! ## Submitting a command -/

/-- A CMD write while ERR = 0 runs the command it decodes to: the step is the command's execution, which always answers a
next state, then the reply. -/
def Obligations.StepRunsDecodedCommand : Prop :=
  ∀ (s : State) (h : Nat) (w : Word) (rest : List PortEvent) (i : Instr),
    s.pending = cmdWrite h w :: rest → s.status.err = false → decode w = .command i →
    ∃ t, exec i { s with pending := rest } = .next t ∧ step s = .next (t.answer h .done)

/-- R182: whenever a CMD write sets ERR, the entry is precise: ERR, CAUSE and FAULTCMD are written (FAULTCMD with the whole
CMD value), and nothing else changes. -/
def Obligations.ErrorEntryIsPrecise : Prop :=
  ∀ (s : State) (h : Nat) (w : Word) (rest : List PortEvent),
    s.pending = cmdWrite h w :: rest → s.status.err = false →
    ∃ t, step s = .next t ∧ PortServed rest h .done s t ∧ (t.status.err = true → ∃ c, ErrorEntered c w s t)

/-- R181, R183: which cause a CMD write records, in the order of priority, and that it records none otherwise. -/
def Obligations.CauseRecorded : Prop :=
  ∀ (s : State) (h : Nat) (w : Word) (rest : List PortEvent),
    BlockInv s → s.pending = cmdWrite h w :: rest → s.status.err = false →
    ∃ t, step s = .next t ∧
      (UnassignedOpcode w → t.status.cause = some .illegalOpcode) ∧
      ((¬ UnassignedOpcode w ∧ ∀ i : Instr, i.wellFormed = true → cmdValue i ≠ w) →
        t.status.cause = some .reservedField) ∧
      (∀ i : Instr, i.wellFormed = true → cmdValue i = w →
        t.status.cause =
          match i with
          | .magic _ ra =>
            if (s.readX ra).toNat % 2 ^ 32 = 0 then some .divisorZero
            else if (s.readX ra).toNat % 2 ^ 32 = 1 then some .magicRange
            else none
          | .ldivmod _ _ _ imm8 => if s.ctrl.nl.toNat + 1 ≤ imm8.toNat then some .limbIndex else none
          | _ => none)

/-- R184: while ERR = 1 a CMD write of any value sets DROP and does nothing else. -/
def Obligations.CommandDiscardedWhileError : Prop :=
  ∀ (s : State) (h : Nat) (w : Word) (rest : List PortEvent),
    s.pending = cmdWrite h w :: rest → s.status.err = true →
    ∃ t, step s = .next t ∧ PortServed rest h .done s t ∧ SameX s t ∧ SameLimbs s t ∧ t.ctrl = s.ctrl ∧
      t.faultcmd = s.faultcmd ∧ t.status = ⟨true, s.status.ovf, true, s.status.cause⟩

/-- No command writes CTRL, clears OVF, changes DROP or touches the port; none but LMULADD changes OVF; none but LDIVMOD,
LMULADD and LPACK changes a limb; and none but MAGIC and LDIVMOD changes ERR, CAUSE or FAULTCMD. -/
def Obligations.CommandFrame : Prop :=
  ∀ (i : Instr) (s t : State), exec i s = .next t →
    t.ctrl = s.ctrl ∧ (s.status.ovf = true → t.status.ovf = true) ∧ t.status.drop = s.status.drop ∧ PortKept s t ∧
      (i.opcode ≠ .lmuladd → t.status.ovf = s.status.ovf) ∧
      (i.opcode ≠ .ldivmod → i.opcode ≠ .lmuladd → i.opcode ≠ .lpack → SameLimbs s t) ∧
      (i.opcode ≠ .magic → i.opcode ≠ .ldivmod →
        t.status.err = s.status.err ∧ t.status.cause = s.status.cause ∧ t.faultcmd = s.faultcmd)

/-- R25: no command reads a flag, and no command's result depends on a flag. -/
def Obligations.NoCommandReadsFlags : Prop :=
  ∀ (i : Instr) (s : State) (flags : Status) (fault : Word),
    ∃ t u, exec i s = .next t ∧ exec i { s with status := flags, faultcmd := fault } = .next u ∧
      SameX t u ∧ SameLimbs t u ∧ u.ctrl = t.ctrl

/-! ## The host window -/

/-- R54: what a host read of each register returns, and that a read changes nothing. -/
def Obligations.HostReadReturnsRegister : Prop :=
  ∀ (s : State) (h : Nat) (slot : Slot) (rest : List PortEvent), s.pending = memRead h slot.offset :: rest →
    ∃ t v, step s = .next t ∧ BlockKept s t ∧ PortServed rest h (.data (lanesOfWord v)) s t ∧
      match slot with
      | .id => v = 0x554E434100000007
      | .ctrl => v.toNat = s.ctrl.lw.toNat + 2 ^ 8 * s.ctrl.nl.toNat
      | .status =>
        v.toNat = s.status.err.toNat + 2 * s.status.ovf.toNat + 4 * s.status.drop.toNat +
          2 ^ 8 *
            match s.status.cause with
            | none => 0
            | some .illegalOpcode => 1
            | some .reservedField => 2
            | some .divisorZero => 3
            | some .magicRange => 4
            | some .limbIndex => 5
      | .cmd => v = 0
      | .faultcmd => v = s.faultcmd
      | .x r => v = s.readX r
      | .limb j => v = s.readLimb j

/-- R54: each register stands at its offset, and only there. -/
def Obligations.WindowMap : Prop :=
  (∀ slot off, slotAt off = some slot ↔ off = slot.offset) ∧
    Slot.id.offset = 0x000 ∧ Slot.ctrl.offset = 0x008 ∧ Slot.status.offset = 0x010 ∧ Slot.cmd.offset = 0x018 ∧
    Slot.faultcmd.offset = 0x020 ∧ (∀ r, (Slot.x r).offset.toNat = 0x080 + 8 * r.toNat) ∧
    ∀ j, (Slot.limb j).offset.toNat = 0x100 + 8 * j.val

/-- R56: a host write to a data register or limb takes effect at once, whatever STATUS holds, and changes nothing else; a
write to X0 is discarded. -/
def Obligations.HostWriteRegister : Prop :=
  ∀ (s : State) (h : Nat) (v : Word) (rest : List PortEvent),
    (∀ r, s.pending = memWrite h (Slot.x r).offset v :: rest →
      ∃ t, step s = .next t ∧ PortServed rest h .done s t ∧ WritesX r v s t ∧ SameLimbs s t ∧ t.ctrl = s.ctrl ∧
        t.status = s.status ∧ t.faultcmd = s.faultcmd) ∧
    (∀ j, s.pending = memWrite h (Slot.limb j).offset v :: rest →
      ∃ t, step s = .next t ∧ PortServed rest h .done s t ∧ (∀ k, t.readLimb k = if k = j then v else s.readLimb k) ∧
        SameX s t ∧ t.ctrl = s.ctrl ∧ t.status = s.status ∧ t.faultcmd = s.faultcmd)

/-- R55: writes to ID and FAULTCMD complete normally and are ignored. -/
def Obligations.ReadOnlyWriteIgnored : Prop :=
  ∀ (s : State) (h : Nat) (v : Word) (rest : List PortEvent),
    s.pending = memWrite h 0x000 v :: rest ∨ s.pending = memWrite h 0x020 v :: rest →
    ∃ t, step s = .next t ∧ PortServed rest h .done s t ∧ BlockKept s t

/-- R30: a host write to CTRL, of any value, and what a read returns after it. -/
def Obligations.CtrlWrite : Prop :=
  ∀ (s : State) (h : Nat) (v : Word) (rest : List PortEvent), s.pending = memWrite h 0x008 v :: rest →
    ∃ t, step s = .next t ∧ PortServed rest h .done s t ∧ t.ctrl.nl.toNat = v.toNat / 2 ^ 8 % 8 ∧
      (1 ≤ v.toNat % 32 ∧ v.toNat % 32 ≤ 30 → t.ctrl.lw.toNat = v.toNat % 32) ∧
      (v.toNat % 32 = 0 ∨ 31 ≤ v.toNat % 32 → t.ctrl.lw = s.ctrl.lw) ∧
      (readSlot .ctrl t).toNat = t.ctrl.lw.toNat + 2 ^ 8 * t.ctrl.nl.toNat ∧
      SameX s t ∧ SameLimbs s t ∧ t.status = s.status ∧ t.faultcmd = s.faultcmd

/-- R29: a host write to STATUS, of any value: each of bits 0, 1 and 2 clears its own, and the rest of the value is
ignored. -/
def Obligations.StatusWriteOneToClear : Prop :=
  ∀ (s : State) (h : Nat) (v : Word) (rest : List PortEvent), s.pending = memWrite h 0x010 v :: rest →
    ∃ t, step s = .next t ∧ PortServed rest h .done s t ∧
      (if v.toNat % 2 = 1 then t.status.err = false ∧ t.status.cause = none ∧ t.faultcmd = 0#64
        else t.status.err = s.status.err ∧ t.status.cause = s.status.cause ∧ t.faultcmd = s.faultcmd) ∧
      t.status.ovf = (if v.toNat / 2 % 2 = 1 then false else s.status.ovf) ∧
      t.status.drop = (if v.toNat / 4 % 2 = 1 then false else s.status.drop) ∧
      SameX s t ∧ SameLimbs s t ∧ t.ctrl = s.ctrl

/-- R185: after a STATUS write with bit 0 set, the next CMD write executes again: it is no longer discarded. -/
def Obligations.ErrorReturnResumesCommands : Prop :=
  ∀ (s : State) (h k : Nat) (v : Word) (i : Instr) (rest : List PortEvent),
    s.pending = memWrite h 0x010 v :: cmdWrite k (cmdValue i) :: rest → v.toNat % 2 = 1 → i.wellFormed = true →
    ∃ t u, step s = .next t ∧ t.status.err = false ∧ t.status.cause = none ∧ t.faultcmd = 0#64 ∧
      SameX s t ∧ SameLimbs s t ∧ t.ctrl = s.ctrl ∧ (v.toNat / 4 % 2 = 0 → t.status.drop = s.status.drop) ∧
      exec i { t with pending := rest } = .next u ∧ step t = .next (u.answer k .done)

/-- R52, R55: exactly the accesses of another width, at a misaligned offset or at a reserved offset get a bus error, and
they change no register. -/
def Obligations.BusErrorExactly : Prop :=
  ∀ (s : State) (a : Access) (rest : List PortEvent), s.pending = .access a :: rest →
    ∃ t r, step s = .next t ∧ PortServed rest a.issuer r s t ∧ (r = .busError ↔ NotAdmitted a) ∧
      (NotAdmitted a → BlockKept s t)

/-- R53: lane i of an access carries bits 8i+7 to 8i of the register, both ways. -/
def Obligations.LittleEndianLanes : Prop :=
  (∀ (v : Word) (i b : Nat), i < 8 → b < 8 →
    ∃ lane, (lanesOfWord v)[i]? = some lane ∧ lane.getLsbD b = v.getLsbD (8 * i + b)) ∧
    (∀ (lanes : List Byte) (i b : Nat), lanes.length = 8 → i < 8 → b < 8 →
      ∃ lane, lanes[i]? = some lane ∧ (wordOfLanes lanes).getLsbD (8 * i + b) = lane.getLsbD b)

/-- A register written by the host reads back as written: X1 to X15 and every limb; X0 reads 0 (R54, R56, R58). -/
def Obligations.HostReadAfterWrite : Prop :=
  ∀ (s : State) (h k : Nat) (slot : Slot) (v : Word) (rest : List PortEvent),
    s.pending = memWrite h slot.offset v :: memRead k slot.offset :: rest →
    ∃ t u, step s = .next t ∧ step t = .next u ∧ u.pending = rest ∧
      ((∃ j, slot = .limb j) ∨ (∃ r, r ≠ 0#4 ∧ slot = .x r) →
        u.replies = s.replies ++ [⟨h, .done⟩, ⟨k, .data (lanesOfWord v)⟩]) ∧
      (slot = .x 0#4 → u.replies = s.replies ++ [⟨h, .done⟩, ⟨k, .data (lanesOfWord 0)⟩])

/-- R189: every admitted host access has the same effect whoever issues it. -/
def Obligations.IssuerDoesNotMatter : Prop :=
  ∀ (s u : State) (a : Access) (h : Nat) (rest : List PortEvent), s.pending = .access a :: rest →
    u = { s with pending := .access { a with issuer := h } :: rest } →
    ∃ t t' r, step s = .next t ∧ step u = .next t' ∧ BlockKept t t' ∧ PortServed rest a.issuer r s t ∧
      PortServed rest h r u t'

/-! ## CDIV -/

/-- R101: MAGIC. -/
def Obligations.MagicCommand : Prop :=
  ∀ (rd ra : Reg) (s : State),
    let d := (s.readX ra).toNat % 2 ^ 32
    let w : Word := (packFields 0 0 0 ra rd 0x10).setWidth 64
    decode w = .command (.magic rd ra) ∧
      (d = 0 → ∃ t, exec (.magic rd ra) s = .next t ∧ ErrorEntered .divisorZero w s t ∧ PortKept s t) ∧
      (d = 1 → ∃ t, exec (.magic rd ra) s = .next t ∧ ErrorEntered .magicRange w s t ∧ PortKept s t) ∧
      (2 ≤ d → ∃ t, exec (.magic rd ra) s = .next t ∧ WritesOnlyX rd (BitVec.ofNat 64 ((2 ^ 64 - 1) / d + 1)) s t)

/-- The constant MAGIC writes is ceil(2^64 / d), its error term is below d, and is 0 exactly for the powers of two (41_cdiv.md
section 1). -/
def Obligations.MagicConstantIsCeiling : Prop :=
  ∀ (rd ra : Reg) (s : State), rd ≠ 0#4 → 2 ≤ (s.readX ra).toNat % 2 ^ 32 →
    ∃ t, exec (.magic rd ra) s = .next t ∧
      let d := (s.readX ra).toNat % 2 ^ 32
      let m := (t.readX rd).toNat
      m = magicNat d ∧ 2 ^ 64 ≤ m * d ∧ m * d - 2 ^ 64 < d ∧ (m * d = 2 ^ 64 ↔ ∃ k, d = 2 ^ k)

/-- R102, R104: FDIVN and FDIVW write the high half of the 128-bit product, for every input. -/
def Obligations.QuotientCommands : Prop :=
  ∀ (rd ra rb : Reg) (s : State),
    decode ((packFields 0 0 rb ra rd 0x11).setWidth 64) = .command (.fdivn rd ra rb) ∧
      decode ((packFields 0 0 rb ra rd 0x13).setWidth 64) = .command (.fdivw rd ra rb) ∧
      (∃ t, exec (.fdivn rd ra rb) s = .next t ∧
        WritesOnlyX rd
          ((((s.readX ra).extractLsb' 0 32).setWidth 128 * (s.readX rb).setWidth 128).extractLsb' 64 64) s t) ∧
      ∃ t, exec (.fdivw rd ra rb) s = .next t ∧
        WritesOnlyX rd (((s.readX ra).setWidth 128 * (s.readX rb).setWidth 128).extractLsb' 64 64) s t

/-- FMODN and FMODW write the high half of (the low half of a·M)·d, for every input, divisor 0 included (41_cdiv.md section
2; the formula is the spec's reading: "the form "high 64 bits of (low 64 bits of a·M) · d" is this spec's reading"). -/
def Obligations.RemainderCommands : Prop :=
  ∀ (rd ra rb rc : Reg) (s : State),
    let fastmod (a : Word) : Word :=
      ((((a.setWidth 128 * (s.readX rb).setWidth 128).extractLsb' 0 64).setWidth 128 *
        ((s.readX rc).extractLsb' 0 32).setWidth 128).extractLsb' 64 64)
    decode ((packFields 0 rc rb ra rd 0x12).setWidth 64) = .command (.fmodn rd ra rb rc) ∧
      decode ((packFields 0 rc rb ra rd 0x14).setWidth 64) = .command (.fmodw rd ra rb rc) ∧
      (∃ t, exec (.fmodn rd ra rb rc) s = .next t ∧
        WritesOnlyX rd (fastmod (((s.readX ra).extractLsb' 0 32).setWidth 64)) s t) ∧
      ∃ t, exec (.fmodw rd ra rb rc) s = .next t ∧ WritesOnlyX rd (fastmod (s.readX ra)) s t

/-- Whatever the dividend and the magic constant, a remainder command's result is below the divisor, and 0 for divisor 0
(41_cdiv.md section 2, corner cases). -/
def Obligations.RemainderBelowDivisor : Prop :=
  ∀ (rd ra rb rc : Reg) (i : Instr) (s : State), rd ≠ 0#4 → i = .fmodn rd ra rb rc ∨ i = .fmodw rd ra rb rc →
    ∃ t, exec i s = .next t ∧
      let d := (s.readX rc).toNat % 2 ^ 32
      (1 ≤ d → (t.readX rd).toNat < d) ∧ (d = 0 → t.readX rd = 0#64)

/-- The exactness criterion of the multiply-and-shift division, for every 64-bit dividend (41_cdiv.md section 3). -/
def Obligations.ExactnessCriterion : Prop :=
  ∀ (rd ra rb rc : Reg) (s : State), rd ≠ 0#4 →
    let d := (s.readX rc).toNat % 2 ^ 32
    let a := (s.readX ra).toNat
    let e := errorTerm d
    2 ≤ d → (s.readX rb).toNat = magicNat d →
    ∃ t u, exec (.fdivw rd ra rb) s = .next t ∧ exec (.fmodw rd ra rb rc) s = .next u ∧
      ((t.readX rd).toNat = a / d ↔ a % d * 2 ^ 64 + a * e < d * 2 ^ 64) ∧
      ((t.readX rd).toNat = a / d → (u.readX rd).toNat = a % d + a * e / 2 ^ 64) ∧
      (a * e < 2 ^ 64 → (t.readX rd).toNat = a / d ∧ (u.readX rd).toNat = a % d)

/-- The narrow commands are exact for every 32-bit dividend and every divisor from 2 (41_cdiv.md section 3). -/
def Obligations.NarrowDivisionExact : Prop :=
  ∀ (rd ra rb rc : Reg) (s : State), rd ≠ 0#4 →
    let d := (s.readX rc).toNat % 2 ^ 32
    let a := (s.readX ra).toNat % 2 ^ 32
    2 ≤ d → (s.readX rb).toNat = magicNat d →
    ∃ t u, exec (.fdivn rd ra rb) s = .next t ∧ exec (.fmodn rd ra rb rc) s = .next u ∧
      (t.readX rd).toNat = a / d ∧ (u.readX rd).toNat = a % d

/-- The widened commands at the source's divisors: where each is exact, and its first inexact dividend (41_cdiv.md section 3). -/
def Obligations.WidenedDivisionExact : Prop :=
  ∀ (rd ra rb rc : Reg) (s : State), rd ≠ 0#4 →
    let d := (s.readX rc).toNat % 2 ^ 32
    let a := (s.readX ra).toNat
    (s.readX rb).toNat = magicNat d →
    ∃ t u, exec (.fdivw rd ra rb) s = .next t ∧ exec (.fmodw rd ra rb rc) s = .next u ∧
      let quotientExact := (t.readX rd).toNat = a / d
      let remainderExact := (u.readX rd).toNat = a % d
      (d = 32 ∨ d = 64 → quotientExact ∧ remainderExact) ∧
        (d = 58 → (a < 542551296285575097 → quotientExact) ∧ (a = 542551296285575097 → ¬ quotientExact) ∧
          (a < 542551296285575048 → remainderExact) ∧ (a = 542551296285575048 → ¬ remainderExact)) ∧
        (d = 3364 → (a < 10749850858808415 → quotientExact) ∧ (a = 10749850858808415 → ¬ quotientExact) ∧
          (a < 10749850858805101 → remainderExact) ∧ (a = 10749850858805101 → ¬ remainderExact)) ∧
        (d = 195112 → (a < 281063263091279 → quotientExact) ∧ (a = 281063263091279 → ¬ quotientExact) ∧
          (a < 281063262946575 → remainderExact) ∧ (a = 281063262946575 → ¬ remainderExact))

/-- The widened contract fails at d = 2^32 − 1: the formula's values, not the quotient and remainder (41_cdiv.md section 3,
90_conflicts.md C2). -/
def Obligations.WidenedContractCounterexample : Prop :=
  ∀ s : State, s.readX 1 = 4611686017353646079 → s.readX 2 = 0x0000000100000002 → s.readX 3 = 0xFFFFFFFF →
    ∃ t u, exec (.fdivw 4 1 2) s = .next t ∧ exec (.fmodw 4 1 2 3) s = .next u ∧ t.readX 4 = 1073741824 ∧
      u.readX 4 = 1073741822

/-- For a power of two the division commands shift and mask, for every dividend (41_cdiv.md section 3). -/
def Obligations.PowerOfTwoDivision : Prop :=
  ∀ (rd ra rb rc : Reg) (k : Nat) (s : State), rd ≠ 0#4 → 1 ≤ k → k ≤ 31 →
    (s.readX rc).toNat % 2 ^ 32 = 2 ^ k → s.readX rb = 1#64 <<< (64 - k) →
    ∃ t u t' u', exec (.fdivw rd ra rb) s = .next t ∧ exec (.fmodw rd ra rb rc) s = .next u ∧
      exec (.fdivn rd ra rb) s = .next t' ∧ exec (.fmodn rd ra rb rc) s = .next u' ∧
      t.readX rd = s.readX ra >>> k ∧ (u.readX rd).toNat = (s.readX ra).toNat % 2 ^ k ∧
      t'.readX rd = (((s.readX ra).extractLsb' 0 32).setWidth 64) >>> k ∧
      (u'.readX rd).toNat = (s.readX ra).toNat % 2 ^ k

/-! ## MLBC -/

/-- R121: LDIVMOD, for any limbs, divisor and magic constant; `rem` are the running remainders, from 0 above limb `first`. -/
def Obligations.LdivmodCommand : Prop :=
  ∀ (rd rb rc : Reg) (first : BitVec 3) (s : State),
    let i : Instr := .ldivmod rd rb rc (0#5 ++ first)
    let w : Word := (packFields (0#5 ++ first) rc rb 0 rd 0x20).setWidth 64
    let d := (s.readX rb).toNat % 2 ^ 32
    let m := (s.readX rc).toNat
    decode w = .command i ∧
      (s.ctrl.nl.toNat + 1 ≤ first.toNat →
        ∃ t, exec i s = .next t ∧ ErrorEntered .limbIndex w s t ∧ PortKept s t) ∧
      (first.toNat < s.ctrl.nl.toNat + 1 →
        ∃ (t : State) (rem : Nat → Word), exec i s = .next t ∧ rem (first.toNat + 1) = 0 ∧
          (∀ j : LimbIndex, j.val ≤ first.toNat →
            let temp := ((rem (j.val + 1)).toNat * 2 ^ s.ctrl.lw.toNat + (s.readLimb j).toNat) % 2 ^ 64
            (t.readLimb j).toNat = temp * m / 2 ^ 64 ∧ (rem j.val).toNat = temp * m % 2 ^ 64 * d / 2 ^ 64) ∧
          (∀ j : LimbIndex, first.toNat < j.val → t.readLimb j = s.readLimb j) ∧ WritesX rd (rem 0) s t ∧
          t.ctrl = s.ctrl ∧ t.status = s.status ∧ t.faultcmd = s.faultcmd ∧ PortKept s t)

/-- The long-division law: where the multiply-and-shift step is exact, LDIVMOD divides the limb value (42_mlbc.md section 3). -/
def Obligations.LongDivisionLaw : Prop :=
  ∀ (rd rb rc : Reg) (first : BitVec 3) (s : State),
    let d := (s.readX rb).toNat % 2 ^ 32
    first.toNat < s.ctrl.limbCount → LimbsWellFormed s →
    (∀ j : LimbIndex, first.toNat < j.val → j.val < s.ctrl.limbCount → s.readLimb j = 0#64) →
    2 ≤ d → (s.readX rc).toNat = magicNat d →
    (∀ a, a < d * 2 ^ s.ctrl.limbWidth → a * errorTerm d < 2 ^ 64) →
    ∃ t, exec (.ldivmod rd rb rc (0#5 ++ first)) s = .next t ∧ LimbsWellFormed t ∧
      limbValue t = limbValue s / d ∧ WritesX rd (BitVec.ofNat 64 (limbValue s % d)) s t

/-- Skipping zero leading limbs changes nothing: the same limbs, remainder and everything else as a pass from limb N − 1, for
any limb width, divisor and magic constant (42_mlbc.md section 3). -/
def Obligations.SkippingZeroLimbs : Prop :=
  ∀ (rd rb rc : Reg) (first : BitVec 3) (s : State), first.toNat ≤ s.ctrl.nl.toNat →
    (∀ j : LimbIndex, first.toNat < j.val → j.val ≤ s.ctrl.nl.toNat → s.readLimb j = 0#64) →
    ∃ t u, exec (.ldivmod rd rb rc (0#5 ++ first)) s = .next t ∧
      exec (.ldivmod rd rb rc (0#5 ++ s.ctrl.nl)) s = .next u ∧ SameX t u ∧ SameLimbs t u ∧ u.status = t.status

/-- Seven passes by 58^3 over a 120-bit value give its seven base-58^3 digits, least significant first, and leave the limbs
0 (42_mlbc.md section 3). -/
def Obligations.SevenPassesGiveDigits : Prop :=
  ∀ (rd rb rc : Reg) (s : State), rd ≠ 0#4 → rd ≠ rb → rd ≠ rc →
    s.ctrl.limbWidth = 30 → s.ctrl.limbCount = 4 → LimbsWellFormed s → (s.readX rb).toNat % 2 ^ 32 = 58 ^ 3 →
    (s.readX rc).toNat = magicNat (58 ^ 3) →
    ∃ t, collectRun (.ldivmod rd rb rc 3) rd 7 s =
        some ((List.range 7).map fun k => BitVec.ofNat 64 (limbValue s / (58 ^ 3) ^ k % 58 ^ 3), t) ∧
      (∀ j : LimbIndex, j.val < 4 → t.readLimb j = 0#64) ∧ ∀ j : LimbIndex, 4 ≤ j.val → t.readLimb j = s.readLimb j

/-- R122: LMULADD, for any limbs, radix and carry in; `c` are the running carries, from the carry in below limb 0. -/
def Obligations.LmuladdCommand : Prop :=
  ∀ (rd ra rb : Reg) (s : State),
    let n := s.ctrl.nl.toNat + 1
    let lw := s.ctrl.lw.toNat
    decode ((packFields 0 0 rb ra rd 0x21).setWidth 64) = .command (.lmuladd rd ra rb) ∧
      ∃ (t : State) (c : Nat → Word), exec (.lmuladd rd ra rb) s = .next t ∧ c 0 = s.readX rb ∧
        (∀ j : LimbIndex, j.val < n →
          let p := (s.readLimb j).toNat * (s.readX ra).toNat + (c j.val).toNat
          (t.readLimb j).toNat = p % 2 ^ lw ∧ (c (j.val + 1)).toNat = p / 2 ^ lw % 2 ^ 64) ∧
        (∀ j : LimbIndex, n ≤ j.val → t.readLimb j = s.readLimb j) ∧ WritesX rd (c n) s t ∧
        (t.status.ovf = true ↔ s.status.ovf = true ∨ c n ≠ 0#64) ∧ t.status.err = s.status.err ∧
        t.status.drop = s.status.drop ∧ t.status.cause = s.status.cause ∧ t.faultcmd = s.faultcmd ∧
        t.ctrl = s.ctrl ∧ PortKept s t

/-- The LMULADD law: on well-formed limbs it multiplies and adds exactly, carrying out what does not fit (42_mlbc.md section
2). -/
def Obligations.HornerStepLaw : Prop :=
  ∀ (rd ra rb : Reg) (s : State), LimbsWellFormed s →
    let total := limbValue s * (s.readX ra).toNat + (s.readX rb).toNat
    let modulus := 2 ^ (s.ctrl.limbWidth * s.ctrl.limbCount)
    ∃ t, exec (.lmuladd rd ra rb) s = .next t ∧ LimbsWellFormed t ∧ limbValue t = total % modulus ∧
      total / modulus < 2 ^ 64 ∧ WritesX rd (BitVec.ofNat 64 (total / modulus)) s t ∧
      (t.status.ovf = true ↔ s.status.ovf = true ∨ modulus ≤ total)

/-- The Horner accumulation law: from limbs 0 and OVF 0, after any digits the limbs hold the accumulated value modulo
2^(LW·N), and OVF tells exactly whether it overflowed (42_mlbc.md sections 2 and 3). -/
def Obligations.HornerAccumulation : Prop :=
  ∀ (rd ra rb : Reg) (digits : List Word) (s : State), rb ≠ 0#4 → ra ≠ rb → ra ≠ rd → 1 ≤ (s.readX ra).toNat →
    (∀ j : LimbIndex, j.val < s.ctrl.limbCount → s.readLimb j = 0#64) → s.status.ovf = false →
    let total := hornerValue (s.readX ra).toNat digits
    let modulus := 2 ^ (s.ctrl.limbWidth * s.ctrl.limbCount)
    ∃ t, hornerRun rd ra rb digits s = .next t ∧ LimbsWellFormed t ∧ limbValue t = total % modulus ∧
      (t.status.ovf = true ↔ modulus ≤ total)

/-- R124: MADD. -/
def Obligations.MaddCommand : Prop :=
  ∀ (rd ra rb rc : Reg) (s : State),
    decode ((packFields 0 rc rb ra rd 0x22).setWidth 64) = .command (.madd rd ra rb rc) ∧
      ∃ t, exec (.madd rd ra rb rc) s = .next t ∧ WritesOnlyX rd (s.readX ra * s.readX rb + s.readX rc) s t

/-- R125: LPACK. -/
def Obligations.LpackCommand : Prop :=
  ∀ (ra rb : Reg) (s : State),
    decode ((packFields 0 0 rb ra 0 0x23).setWidth 64) = .command (.lpack ra rb) ∧
      ∃ t, exec (.lpack ra rb) s = .next t ∧
        (t.readLimb 0).toNat = (s.readX rb).toNat % 2 ^ 30 ∧
        (t.readLimb 1).toNat = (s.readX rb).toNat / 2 ^ 30 % 2 ^ 30 ∧
        (t.readLimb 2).toNat = (s.readX ra).toNat % 2 ^ 30 ∧
        (t.readLimb 3).toNat = (s.readX ra).toNat / 2 ^ 30 % 2 ^ 30 ∧
        (∀ j : LimbIndex, 4 ≤ j.val → t.readLimb j = 0#64) ∧
        SameX s t ∧ t.ctrl = s.ctrl ∧ t.status = s.status ∧ t.faultcmd = s.faultcmd ∧ PortKept s t

/-- R126, R127: LHI and LLO. -/
def Obligations.HalfReadCommands : Prop :=
  ∀ (rd : Reg) (s : State),
    decode ((packFields 0 0 0 0 rd 0x24).setWidth 64) = .command (.lhi rd) ∧
      decode ((packFields 0 0 0 0 rd 0x25).setWidth 64) = .command (.llo rd) ∧
      (∃ t, exec (.lhi rd) s = .next t ∧
        WritesOnlyX rd
          (BitVec.ofNat 64 ((s.readLimb 3).toNat % 2 ^ 30 * 2 ^ 30 + (s.readLimb 2).toNat % 2 ^ 30)) s t) ∧
      ∃ t, exec (.llo rd) s = .next t ∧
        WritesOnlyX rd
          (BitVec.ofNat 64 ((s.readLimb 1).toNat % 2 ^ 30 * 2 ^ 30 + (s.readLimb 0).toNat % 2 ^ 30)) s t

/-- Packing two halves and reading them back gives their low 60 bits; under the reset CTRL the limbs hold the 120-bit
payload, msb's half high (42_mlbc.md sections 1 and 2). -/
def Obligations.PackHoldsPayload : Prop :=
  ∀ (ra rb rh rl : Reg) (s : State), rh ≠ 0#4 → rl ≠ 0#4 → rh ≠ rl →
    ∃ t u, exec (.lpack ra rb) s = .next t ∧ execAll [.lhi rh, .llo rl] t = .next u ∧
      (u.readX rh).toNat = (s.readX ra).toNat % 2 ^ 60 ∧ (u.readX rl).toNat = (s.readX rb).toNat % 2 ^ 60 ∧
      (s.ctrl.limbWidth = 30 → s.ctrl.limbCount = 4 → LimbsWellFormed t ∧
        limbValue t = (s.readX ra).toNat % 2 ^ 60 * 2 ^ 60 + (s.readX rb).toNat % 2 ^ 60)

/-! ## BFX -/

/-- R142, R145, R148: the three compressions, bit for bit. -/
def Obligations.CompressCommands : Prop :=
  ∀ (rd ra : Reg) (s : State),
    decode ((packFields 0 0 0 ra rd 0x30).setWidth 64) = .command (.cmpmsb rd ra) ∧
      decode ((packFields 0 0 0 ra rd 0x32).setWidth 64) = .command (.cmplsb rd ra) ∧
      decode ((packFields 0 0 0 ra rd 0x34).setWidth 64) = .command (.cmplex rd ra) ∧
      (∃ t, exec (.cmpmsb rd ra) s = .next t ∧
        WritesOnlyX rd
          (((s.readX ra).extractLsb' 16 48 ++ (s.readX ra).extractLsb' 0 12 : BitVec (48 + 12)).setWidth 64) s t) ∧
      (∃ t, exec (.cmplsb rd ra) s = .next t ∧ WritesOnlyX rd (((s.readX ra).extractLsb' 0 60).setWidth 64) s t) ∧
      ∃ t, exec (.cmplex rd ra) s = .next t ∧ WritesOnlyX rd (((s.readX ra).extractLsb' 2 60).setWidth 64) s t

/-- R143, R146, R149: the three expansions, bit for bit. -/
def Obligations.ExpandCommands : Prop :=
  ∀ (rd ra rb : Reg) (s : State),
    let half := s.readX ra
    let f := s.readX rb
    decode ((packFields 0 0 rb ra rd 0x31).setWidth 64) = .command (.expmsb rd ra rb) ∧
      decode ((packFields 0 0 rb ra rd 0x33).setWidth 64) = .command (.explsb rd ra rb) ∧
      decode ((packFields 0 0 rb ra rd 0x35).setWidth 64) = .command (.explex rd ra rb) ∧
      (∃ t, exec (.expmsb rd ra rb) s = .next t ∧
        WritesOnlyX rd
          (half.extractLsb' 12 48 ++ f.extractLsb' 0 4 ++ half.extractLsb' 0 12 : BitVec (48 + 4 + 12)) s t) ∧
      (∃ t, exec (.explsb rd ra rb) s = .next t ∧
        WritesOnlyX rd (f.extractLsb' 0 4 ++ half.extractLsb' 0 60 : BitVec (4 + 60)) s t) ∧
      ∃ t, exec (.explex rd ra rb) s = .next t ∧
        WritesOnlyX rd
          (f.extractLsb' 2 2 ++ half.extractLsb' 0 60 ++ f.extractLsb' 0 2 : BitVec (2 + 60 + 2)) s t

/-- R151 to R154: the four field accessors. -/
def Obligations.FieldAccessors : Prop :=
  ∀ (rd ra : Reg) (s : State),
    let v := (s.readX ra).toNat
    decode ((packFields 0 0 0 ra rd 0x36).setWidth 64) = .command (.getver rd ra) ∧
      decode ((packFields 0 0 0 ra rd 0x37).setWidth 64) = .command (.getvar rd ra) ∧
      decode ((packFields 0 0 0 ra rd 0x38).setWidth 64) = .command (.getvarlex rd ra) ∧
      decode ((packFields 0 0 0 ra rd 0x39).setWidth 64) = .command (.getvarn rd ra) ∧
      (∃ t, exec (.getver rd ra) s = .next t ∧ WritesOnlyX rd (BitVec.ofNat 64 (v / 2 ^ 12 % 16)) s t) ∧
      (∃ t, exec (.getvar rd ra) s = .next t ∧ WritesOnlyX rd (BitVec.ofNat 64 (v / 2 ^ 62)) s t) ∧
      (∃ t, exec (.getvarlex rd ra) s = .next t ∧ WritesOnlyX rd (BitVec.ofNat 64 (4 * (v / 2 ^ 62) + v % 4)) s t) ∧
      ∃ t, exec (.getvarn rd ra) s = .next t ∧ WritesOnlyX rd (BitVec.ofNat 64 (v / 2 ^ 60)) s t

/-- PEXT: the bit of the value at the mask's j-th set position lands at result bit j, and the bits from the number of set
positions up are 0 (43_bfx.md section 6; the bit order is the spec's convention, 00_scope.md: "the bit-order convention
is the usual one of the instructions so named"). -/
def Obligations.PextGathers : Prop :=
  ∀ (rd ra rb : Reg) (s : State),
    decode ((packFields 0 0 rb ra rd 0x3A).setWidth 64) = .command (.pext rd ra rb) ∧
      ∃ (t : State) (v : Word), exec (.pext rd ra rb) s = .next t ∧ WritesOnlyX rd v s t ∧
        (∀ p, p < 64 → (s.readX rb).getLsbD p = true →
          v.getLsbD (maskRank (s.readX rb) p) = (s.readX ra).getLsbD p) ∧
        ∀ j, maskRank (s.readX rb) 64 ≤ j → v.getLsbD j = false

/-- PDEP: bit j of the value lands at the mask's j-th set position, and the bits outside the mask are 0 (43_bfx.md section 6;
the bit order is the spec's convention, 00_scope.md: "the bit-order convention is the usual one of the instructions so
named"). -/
def Obligations.PdepScatters : Prop :=
  ∀ (rd ra rb : Reg) (s : State),
    decode ((packFields 0 0 rb ra rd 0x3B).setWidth 64) = .command (.pdep rd ra rb) ∧
      ∃ (t : State) (v : Word), exec (.pdep rd ra rb) s = .next t ∧ WritesOnlyX rd v s t ∧
        ∀ p, p < 64 →
          v.getLsbD p = ((s.readX rb).getLsbD p && (s.readX ra).getLsbD (maskRank (s.readX rb) p))

/-- Scattering what was gathered over the same mask keeps exactly the masked bits (00_scope.md section 4). -/
def Obligations.PdepOfPext : Prop :=
  ∀ (re rd ra rb : Reg) (s : State), rd ≠ 0#4 → rd ≠ rb →
    ∃ t u, exec (.pext rd ra rb) s = .next t ∧ exec (.pdep re rd rb) t = .next u ∧
      WritesOnlyX re (s.readX ra &&& s.readX rb) t u

/-- The msb round trip, both ways (43_bfx.md section 2). -/
def Obligations.MsbRoundTrip : Prop :=
  (∀ (rd rc rv ra : Reg) (s : State), rc ≠ 0#4 → rv ≠ 0#4 → rc ≠ rv → rc ≠ ra → rd ≠ 0#4 →
    ∃ t, execAll [.cmpmsb rc ra, .getver rv ra, .expmsb rd rc rv] s = .next t ∧ t.readX rd = s.readX ra) ∧
    ∀ (rd rc rv ra rb : Reg) (s : State), rc ≠ 0#4 → rv ≠ 0#4 → rd ≠ 0#4 → rc ≠ rv → rc ≠ rd →
      (s.readX ra).toNat < 2 ^ 60 → (s.readX rb).toNat < 16 →
      ∃ t, execAll [.expmsb rd ra rb, .cmpmsb rc rd, .getver rv rd] s = .next t ∧ t.readX rc = s.readX ra ∧
        t.readX rv = s.readX rb

/-- The lsb round trips, with the non-lexical nibble and with the lexical field (43_bfx.md sections 3 and 4). -/
def Obligations.LsbRoundTrips : Prop :=
  ∀ (rd rc rv ra : Reg) (s : State), rc ≠ 0#4 → rv ≠ 0#4 → rc ≠ rv → rc ≠ ra → rd ≠ 0#4 →
    (∃ t, execAll [.cmplsb rc ra, .getvarn rv ra, .explsb rd rc rv] s = .next t ∧ t.readX rd = s.readX ra) ∧
      ∃ t, execAll [.cmplex rc ra, .getvarlex rv ra, .explex rd rc rv] s = .next t ∧ t.readX rd = s.readX ra

/-- Among lsb values with equal bits 63:62, the numeric order is the order of the compressed half, then of bits 1:0
(43_bfx.md section 4, 90_conflicts.md C4). -/
def Obligations.LexicalOrder : Prop :=
  ∀ (rd ra rb : Reg) (s : State), rd ≠ 0#4 → (s.readX ra).toNat / 2 ^ 62 = (s.readX rb).toNat / 2 ^ 62 →
    ∃ t u, exec (.cmplex rd ra) s = .next t ∧ exec (.cmplex rd rb) s = .next u ∧
      let c1 := (t.readX rd).toNat
      let c2 := (u.readX rd).toNat
      let l1 := (s.readX ra).toNat
      let l2 := (s.readX rb).toNat
      (l1 < l2 ↔ c1 < c2 ∨ (c1 = c2 ∧ l1 % 4 < l2 % 4))

/-! ## Control and pseudo-instructions -/

/-- R170: the only legal word of NOP is 0, NOP changes nothing, and a CMD write with OP = 0x00 and any other bit set raises
RESERVED_FIELD. -/
def Obligations.NopCommand : Prop :=
  decode 0 = .command .nop ∧ (∀ s : State, ∃ t, exec .nop s = .next t ∧ BlockKept s t ∧ PortKept s t) ∧
    ∀ (s : State) (h : Nat) (w : Word) (rest : List PortEvent),
      s.pending = cmdWrite h w :: rest → s.status.err = false → w ≠ 0 → w.toNat % 256 = 0 →
      ∃ t, step s = .next t ∧ ErrorEntered .reservedField w s t ∧ PortServed rest h .done s t

/-- R79: what the expansions of MOV, CLR and CLRL do. -/
def Obligations.SimplePseudoInstructions : Prop :=
  ∀ (xd xa : Reg) (s : State),
    (∃ t, execAll (Pseudo.mov xd xa).expand s = .next t ∧ WritesOnlyX xd (s.readX xa) s t) ∧
      (∃ t, execAll (Pseudo.clr xd).expand s = .next t ∧ WritesOnlyX xd 0 s t) ∧
      ∃ t, execAll Pseudo.clrl.expand s = .next t ∧ (∀ j, t.readLimb j = 0#64) ∧ SameX s t ∧ t.ctrl = s.ctrl ∧
        t.status = s.status ∧ t.faultcmd = s.faultcmd ∧ PortKept s t

/-- SPLIT3 splits a super-digit below 58^3 into its three base-58 digits. A destination x0 discards its digit, and with xq0
named x0 the lower two digits have nowhere to be formed (30_encoding.md section 4; deduced, assumption 10). -/
def Obligations.SplitSuperDigit : Prop :=
  ∀ (xq2 xq1 xq0 xr xm1 xd1 xm2 xd2 : Reg) (s : State),
    (Pseudo.split3 xq2 xq1 xq0 xr xm1 xd1 xm2 xd2).wellFormed = true →
    (s.readX xr).toNat < 58 ^ 3 → (s.readX xm1).toNat = magicNat 58 → s.readX xd1 = 58 →
    (s.readX xm2).toNat = magicNat (58 ^ 2) → s.readX xd2 = 3364 →
    ∃ t, execAll (Pseudo.split3 xq2 xq1 xq0 xr xm1 xd1 xm2 xd2).expand s = .next t ∧
      (xq2 ≠ 0#4 → (t.readX xq2).toNat = (s.readX xr).toNat / 58 ^ 2) ∧
      (xq1 ≠ 0#4 → xq0 ≠ 0#4 → (t.readX xq1).toNat = (s.readX xr).toNat / 58 % 58) ∧
      (xq1 ≠ 0#4 → xq0 = 0#4 → t.readX xq1 = 0#64) ∧
      (xq0 ≠ 0#4 → (t.readX xq0).toNat = (s.readX xr).toNat % 58) ∧
      (∀ r, r ≠ xq2 → r ≠ xq1 → r ≠ xq0 → t.readX r = s.readX r) ∧ SameLimbs s t ∧ t.ctrl = s.ctrl ∧
      t.status = s.status ∧ t.faultcmd = s.faultcmd ∧ PortKept s t
end

