-- ==== Sys2Proof/Laws/Operands.lean ====
section
/-! SUPPORT. The values commands compute with, as numbers and bit by bit. -/

namespace Sys2Proof.Machine

/-! ### Fields and products as numbers -/

theorem toNat_field (v : Word) (hi lo : Nat) (h : hi + 1 - lo ≤ 64) :
    (field v hi lo).toNat = v.toNat / 2 ^ lo % 2 ^ (hi + 1 - lo) := by
  have hlt : v.toNat / 2 ^ lo % 2 ^ (hi + 1 - lo) < 2 ^ 64 :=
    lt_of_lt_of_le (Nat.mod_lt _ (by positivity)) (Nat.pow_le_pow_right (by norm_num) h)
  rw [field, BitVec.toNat_setWidth, BitVec.extractLsb'_toNat, Nat.shiftRight_eq_div_pow, Nat.mod_eq_of_lt hlt]

@[simp] theorem toNat_low32 (v : Word) : (low32 v).toNat = v.toNat % 2 ^ 32 := by
  rw [low32, toNat_field v 31 0 (by norm_num)]
  simp

theorem mul_div_lt (a b : Word) : a.toNat * b.toNat / 2 ^ 64 < 2 ^ 64 := by
  have ha := a.isLt
  have hb := b.isLt
  rw [Nat.div_lt_iff_lt_mul (by norm_num)]
  nlinarith

@[simp] theorem toNat_mulhi (a b : Word) : (mulhi a b).toNat = a.toNat * b.toNat / 2 ^ 64 := by
  rw [mulhi, BitVec.toNat_ofNat, Nat.mod_eq_of_lt (mul_div_lt a b)]

@[simp] theorem toNat_mullo (a b : Word) : (mullo a b).toNat = a.toNat * b.toNat % 2 ^ 64 := by
  rw [mullo, BitVec.toNat_ofNat, Nat.mod_mod]

@[simp] theorem toNat_fastDiv (a m : Word) : (fastDiv a m).toNat = a.toNat * m.toNat / 2 ^ 64 := toNat_mulhi a m

@[simp] theorem toNat_fastMod (a m d : Word) :
    (fastMod a m d).toNat = a.toNat * m.toNat % 2 ^ 64 * d.toNat / 2 ^ 64 := by
  rw [fastMod, toNat_mulhi, toNat_mullo]

/-- A remainder is below its divisor, whatever the magic constant: the low half of the product is below 2^64. -/
theorem fastMod_lt (a m d : Word) (hd : d.toNat ≠ 0) : (fastMod a m d).toNat < d.toNat := by
  rw [toNat_fastMod, Nat.div_lt_iff_lt_mul (by norm_num), Nat.mul_comm]
  exact Nat.mul_lt_mul_of_pos_left (Nat.mod_lt _ (by norm_num)) (Nat.pos_of_ne_zero hd)

/-- The constant MAGIC computes fits in 64 bits for every divisor from 2. -/
theorem toNat_magicConstant (d : Word) (hd : 2 ≤ d.toNat) :
    (magicConstant d).toNat = (2 ^ 64 - 1) / d.toNat + 1 := by
  have h : (2 ^ 64 - 1) / d.toNat ≤ (2 ^ 64 - 1) / 2 := Nat.div_le_div_left hd (by norm_num)
  rw [magicConstant, BitVec.toNat_ofNat, Nat.mod_eq_of_lt (by omega)]

/-! ### The magic constant and its error term (R100) -/

/-- The rounded-up quotient, in the form computable in 64 bits. -/
theorem magicNat_eq (d : Nat) (hd : 1 ≤ d) : magicNat d = (2 ^ 64 - 1) / d + 1 := by
  have h : 2 ^ 64 + (d - 1) = (2 ^ 64 - 1) + d := by omega
  rw [magicNat, h, Nat.add_div_right _ (by omega)]

/-- Rounding a quotient up and multiplying back overshoots by less than the divisor. -/
theorem ceil_mul (n d : Nat) (hn : 1 ≤ n) (hd : 1 ≤ d) :
    ((n - 1) / d + 1) * d = n + (((n - 1) / d + 1) * d - n) ∧ ((n - 1) / d + 1) * d - n < d := by
  have h1 := Nat.div_add_mod (n - 1) d
  have h2 := Nat.mod_lt (n - 1) (show 0 < d by omega)
  have h3 : ((n - 1) / d + 1) * d = d * ((n - 1) / d) + d := by ring
  omega

/-- `M(d)·d` reaches 2^64 and exceeds it by less than d. -/
theorem magicNat_mul (d : Nat) (hd : 1 ≤ d) : magicNat d * d = 2 ^ 64 + errorTerm d ∧ errorTerm d < d := by
  unfold errorTerm
  rw [magicNat_eq d hd]
  exact ceil_mul (2 ^ 64) d Nat.one_le_two_pow hd

theorem magicNat_lt (d : Nat) (hd : 2 ≤ d) : magicNat d < 2 ^ 64 := by
  have h : (2 ^ 64 - 1) / d ≤ (2 ^ 64 - 1) / 2 := Nat.div_le_div_left hd (by norm_num)
  rw [magicNat_eq d (by omega)]
  omega

/-! ### Gather and scatter bit by bit (R9) -/

/-- Bit j of a gather is the bit at the j-th position. -/
theorem testBit_gatherBits (v : Word) (ps : List Nat) (j : Nat) :
    (gatherBits v ps).testBit j = (ps[j]?.map v.getLsbD).getD false := by
  induction ps generalizing j with
  | nil => simp [gatherBits]
  | cons p ps ih =>
    cases j with
    | zero =>
      rw [gatherBits, Nat.testBit_zero]
      cases h : v.getLsbD p <;> simp [h]
    | succ j =>
      have h : ((v.getLsbD p).toNat + 2 * gatherBits v ps) / 2 = gatherBits v ps := by
        have := Bool.toNat_lt (v.getLsbD p)
        omega
      rw [gatherBits, Nat.testBit_succ, h, ih]
      simp

/-- A scatter to positions from `p` up is a multiple of 2^p. -/
theorem dvd_scatterBits (v : Word) (p : Nat) (ps : List Nat) (h : ∀ q ∈ ps, p ≤ q) (j : Nat) :
    2 ^ p ∣ scatterBits v j ps := by
  induction ps generalizing j with
  | nil => simp [scatterBits]
  | cons q ps ih =>
    simp only [List.mem_cons, forall_eq_or_imp] at h
    exact dvd_add (Dvd.dvd.mul_left (pow_dvd_pow 2 h.1) _) (ih h.2 (j + 1))

/-- Bit q of a scatter over rising positions: 0 where no position is, else the bit of the value that position takes. -/
theorem testBit_scatterBits (v : Word) (ps : List Nat) (hps : ps.Pairwise (· < ·)) (j q : Nat) :
    (q ∉ ps → (scatterBits v j ps).testBit q = false) ∧
      ∀ k, ps[k]? = some q → (scatterBits v j ps).testBit q = v.getLsbD (j + k) := by
  induction ps generalizing j with
  | nil => simp [scatterBits]
  | cons p ps ih =>
    rw [List.pairwise_cons] at hps
    obtain ⟨hp, hps⟩ := hps
    obtain ⟨r, hr⟩ := dvd_scatterBits v (p + 1) ps (fun q hq => hp q hq) (j + 1)
    have hsum : scatterBits v j (p :: ps) = 2 ^ p * ((v.getLsbD j).toNat + 2 * r) := by
      rw [scatterBits, hr]
      ring
    have hhead : ((v.getLsbD j).toNat + 2 * r).testBit 0 = v.getLsbD j := by
      rw [Nat.testBit_zero]
      cases v.getLsbD j <;> simp
    have htail : p < q → (scatterBits v j (p :: ps)).testBit q = (scatterBits v (j + 1) ps).testBit q := by
      intro hq
      have hhalf : ((v.getLsbD j).toNat + 2 * r) / 2 = r := by
        have := Bool.toNat_lt (v.getLsbD j)
        omega
      rw [hsum, hr, Nat.testBit_two_pow_mul, Nat.testBit_two_pow_mul, show q - p = (q - (p + 1)) + 1 by omega,
        Nat.testBit_succ, hhalf]
      simp [show p ≤ q by omega, show p + 1 ≤ q by omega]
    constructor
    · intro hq
      simp only [List.mem_cons, not_or] at hq
      rcases Nat.lt_or_ge p q with h | h
      · rw [htail h]
        exact (ih hps (j + 1)).1 hq.2
      · rw [hsum, Nat.testBit_two_pow_mul]
        simp [show ¬ p ≤ q by omega]
    · intro k hk
      cases k with
      | zero =>
        simp only [List.getElem?_cons_zero, Option.some.injEq] at hk
        subst hk
        rw [hsum, Nat.testBit_two_pow_mul]
        simpa using hhead
      | succ k =>
        rw [List.getElem?_cons_succ] at hk
        rw [htail (hp q (List.mem_of_getElem? hk)), (ih hps (j + 1)).2 k hk]
        congr 1
        omega

theorem mem_setPositions (m : Word) (p : Nat) : p ∈ setPositions m ↔ p < 64 ∧ m.getLsbD p = true := by
  simp [setPositions]

theorem setPositions_pairwise (m : Word) : (setPositions m).Pairwise (· < ·) :=
  List.Pairwise.filter _ List.pairwise_lt_range

/-- A set position of a mask stands in `setPositions` at its rank. -/
theorem setPositions_rank (m : Word) {p : Nat} (hp : p < 64) (h : m.getLsbD p = true) :
    (setPositions m)[maskRank m p]? = some p := by
  have key : ∀ n, p < n → ((List.range n).filter fun i => m.getLsbD i)[maskRank m p]? = some p := by
    intro n
    induction n with
    | zero => omega
    | succ n ih =>
      intro hn
      rw [List.range_succ, List.filter_append]
      rcases Nat.lt_or_ge p n with hlt | hge
      · have := ih hlt
        rw [List.getElem?_append_left (List.getElem?_eq_some_iff.mp this).1, this]
      · obtain rfl : p = n := by omega
        rw [List.getElem?_append_right (by simp [maskRank])]
        simp [maskRank, h]
  exact key 64 hp

theorem setPositions_length (m : Word) : (setPositions m).length = maskRank m 64 := rfl

/-- `pext`, bit by bit. -/
theorem getLsbD_pextWord (v m : Word) (j : Nat) :
    (pextWord v m).getLsbD j = ((setPositions m)[j]?.map v.getLsbD).getD false := by
  rw [pextWord, BitVec.getLsbD_ofNat, testBit_gatherBits]
  rcases Nat.lt_or_ge j 64 with h | h
  · simp [h]
  · have hlen : (setPositions m).length ≤ 64 := by
      simpa [setPositions] using List.length_filter_le (fun p => m.getLsbD p) (List.range 64)
    rw [List.getElem?_eq_none (by omega)]
    simp

/-- `pdep`, bit by bit. -/
theorem getLsbD_pdepWord (v m : Word) {p : Nat} (hp : p < 64) :
    (pdepWord v m).getLsbD p = (m.getLsbD p && v.getLsbD (maskRank m p)) := by
  rw [pdepWord, BitVec.getLsbD_ofNat]
  have h := testBit_scatterBits v (setPositions m) (setPositions_pairwise m) 0 p
  cases hm : m.getLsbD p with
  | false =>
    rw [h.1 (by simp [mem_setPositions, hm])]
    simp
  | true =>
    rw [h.2 _ (setPositions_rank m hp hm)]
    simp [hp]

end Sys2Proof.Machine
end

