-- ==== Sys2Proof/Laws/State.lean ====
section
/-! SUPPORT. One lemma per field of State per named update: what the update leaves the field at. -/

namespace Sys2Proof.Machine

/-! ### writeX -/

@[simp] theorem writeX_limbs (s : State) (r : Reg) (v : Word) : (s.writeX r v).limbs = s.limbs :=
  by unfold State.writeX; split <;> rfl
@[simp] theorem writeX_ctrl (s : State) (r : Reg) (v : Word) : (s.writeX r v).ctrl = s.ctrl :=
  by unfold State.writeX; split <;> rfl
@[simp] theorem writeX_status (s : State) (r : Reg) (v : Word) : (s.writeX r v).status = s.status :=
  by unfold State.writeX; split <;> rfl
@[simp] theorem writeX_faultcmd (s : State) (r : Reg) (v : Word) : (s.writeX r v).faultcmd = s.faultcmd :=
  by unfold State.writeX; split <;> rfl
@[simp] theorem writeX_pending (s : State) (r : Reg) (v : Word) : (s.writeX r v).pending = s.pending :=
  by unfold State.writeX; split <;> rfl
@[simp] theorem writeX_replies (s : State) (r : Reg) (v : Word) : (s.writeX r v).replies = s.replies :=
  by unfold State.writeX; split <;> rfl

/-! ### writeLimb -/

@[simp] theorem writeLimb_xs (s : State) (j : LimbIndex) (v : Word) : (s.writeLimb j v).xs = s.xs := rfl
@[simp] theorem writeLimb_limbs (s : State) (j : LimbIndex) (v : Word) : (s.writeLimb j v).limbs = withLimb s.limbs j.val v :=
  rfl
@[simp] theorem writeLimb_ctrl (s : State) (j : LimbIndex) (v : Word) : (s.writeLimb j v).ctrl = s.ctrl := rfl
@[simp] theorem writeLimb_status (s : State) (j : LimbIndex) (v : Word) : (s.writeLimb j v).status = s.status := rfl
@[simp] theorem writeLimb_faultcmd (s : State) (j : LimbIndex) (v : Word) : (s.writeLimb j v).faultcmd = s.faultcmd :=
  rfl
@[simp] theorem writeLimb_pending (s : State) (j : LimbIndex) (v : Word) : (s.writeLimb j v).pending = s.pending :=
  rfl
@[simp] theorem writeLimb_replies (s : State) (j : LimbIndex) (v : Word) : (s.writeLimb j v).replies = s.replies :=
  rfl

/-! ### withLimbs -/

@[simp] theorem withLimbs_xs (s : State) (l : Vector Word 8) : (s.withLimbs l).xs = s.xs := rfl
@[simp] theorem withLimbs_limbs (s : State) (l : Vector Word 8) : (s.withLimbs l).limbs = l := rfl
@[simp] theorem withLimbs_ctrl (s : State) (l : Vector Word 8) : (s.withLimbs l).ctrl = s.ctrl := rfl
@[simp] theorem withLimbs_status (s : State) (l : Vector Word 8) : (s.withLimbs l).status = s.status := rfl
@[simp] theorem withLimbs_faultcmd (s : State) (l : Vector Word 8) : (s.withLimbs l).faultcmd = s.faultcmd := rfl
@[simp] theorem withLimbs_pending (s : State) (l : Vector Word 8) : (s.withLimbs l).pending = s.pending := rfl
@[simp] theorem withLimbs_replies (s : State) (l : Vector Word 8) : (s.withLimbs l).replies = s.replies := rfl

/-! ### writeCtrl -/

@[simp] theorem writeCtrl_xs (s : State) (v : Word) : (s.writeCtrl v).xs = s.xs := rfl
@[simp] theorem writeCtrl_limbs (s : State) (v : Word) : (s.writeCtrl v).limbs = s.limbs := rfl
@[simp] theorem writeCtrl_ctrl (s : State) (v : Word) : (s.writeCtrl v).ctrl = s.ctrl.written v := rfl
@[simp] theorem writeCtrl_status (s : State) (v : Word) : (s.writeCtrl v).status = s.status := rfl
@[simp] theorem writeCtrl_faultcmd (s : State) (v : Word) : (s.writeCtrl v).faultcmd = s.faultcmd := rfl
@[simp] theorem writeCtrl_pending (s : State) (v : Word) : (s.writeCtrl v).pending = s.pending := rfl
@[simp] theorem writeCtrl_replies (s : State) (v : Word) : (s.writeCtrl v).replies = s.replies := rfl

/-! ### noteCarry -/

@[simp] theorem noteCarry_xs (s : State) (c : Word) : (s.noteCarry c).xs = s.xs := rfl
@[simp] theorem noteCarry_limbs (s : State) (c : Word) : (s.noteCarry c).limbs = s.limbs := rfl
@[simp] theorem noteCarry_ctrl (s : State) (c : Word) : (s.noteCarry c).ctrl = s.ctrl := rfl
@[simp] theorem noteCarry_status (s : State) (c : Word) : (s.noteCarry c).status = s.status.withCarry c := rfl
@[simp] theorem noteCarry_faultcmd (s : State) (c : Word) : (s.noteCarry c).faultcmd = s.faultcmd := rfl
@[simp] theorem noteCarry_pending (s : State) (c : Word) : (s.noteCarry c).pending = s.pending := rfl
@[simp] theorem noteCarry_replies (s : State) (c : Word) : (s.noteCarry c).replies = s.replies := rfl

/-! ### raiseBlockError -/

@[simp] theorem raiseBlockError_xs (s : State) (c : Cause) (w : Word) : (raiseBlockError c w s).xs = s.xs := rfl
@[simp] theorem raiseBlockError_limbs (s : State) (c : Cause) (w : Word) : (raiseBlockError c w s).limbs = s.limbs :=
  rfl
@[simp] theorem raiseBlockError_ctrl (s : State) (c : Cause) (w : Word) : (raiseBlockError c w s).ctrl = s.ctrl := rfl
@[simp] theorem raiseBlockError_status (s : State) (c : Cause) (w : Word) : (raiseBlockError c w s).status = s.status.withError c :=
  rfl
@[simp] theorem raiseBlockError_faultcmd (s : State) (c : Cause) (w : Word) : (raiseBlockError c w s).faultcmd = w :=
  rfl
@[simp] theorem raiseBlockError_pending (s : State) (c : Cause) (w : Word) : (raiseBlockError c w s).pending = s.pending :=
  rfl
@[simp] theorem raiseBlockError_replies (s : State) (c : Cause) (w : Word) : (raiseBlockError c w s).replies = s.replies :=
  rfl

/-! ### clearError -/

@[simp] theorem clearError_xs (s : State) : (clearError s).xs = s.xs := rfl
@[simp] theorem clearError_limbs (s : State) : (clearError s).limbs = s.limbs := rfl
@[simp] theorem clearError_ctrl (s : State) : (clearError s).ctrl = s.ctrl := rfl
@[simp] theorem clearError_status (s : State) : (clearError s).status = s.status.withoutError := rfl
@[simp] theorem clearError_faultcmd (s : State) : (clearError s).faultcmd = 0#64 := rfl
@[simp] theorem clearError_pending (s : State) : (clearError s).pending = s.pending := rfl
@[simp] theorem clearError_replies (s : State) : (clearError s).replies = s.replies := rfl

/-! ### discardCommand -/

@[simp] theorem discardCommand_xs (s : State) : (discardCommand s).xs = s.xs := rfl
@[simp] theorem discardCommand_limbs (s : State) : (discardCommand s).limbs = s.limbs := rfl
@[simp] theorem discardCommand_ctrl (s : State) : (discardCommand s).ctrl = s.ctrl := rfl
@[simp] theorem discardCommand_status (s : State) : (discardCommand s).status = s.status.withDrop := rfl
@[simp] theorem discardCommand_faultcmd (s : State) : (discardCommand s).faultcmd = s.faultcmd := rfl
@[simp] theorem discardCommand_pending (s : State) : (discardCommand s).pending = s.pending := rfl
@[simp] theorem discardCommand_replies (s : State) : (discardCommand s).replies = s.replies := rfl

/-! ### clearOvf -/

@[simp] theorem clearOvf_xs (s : State) : (clearOvf s).xs = s.xs := rfl
@[simp] theorem clearOvf_limbs (s : State) : (clearOvf s).limbs = s.limbs := rfl
@[simp] theorem clearOvf_ctrl (s : State) : (clearOvf s).ctrl = s.ctrl := rfl
@[simp] theorem clearOvf_status (s : State) : (clearOvf s).status = s.status.withoutOvf := rfl
@[simp] theorem clearOvf_faultcmd (s : State) : (clearOvf s).faultcmd = s.faultcmd := rfl
@[simp] theorem clearOvf_pending (s : State) : (clearOvf s).pending = s.pending := rfl
@[simp] theorem clearOvf_replies (s : State) : (clearOvf s).replies = s.replies := rfl

/-! ### clearDrop -/

@[simp] theorem clearDrop_xs (s : State) : (clearDrop s).xs = s.xs := rfl
@[simp] theorem clearDrop_limbs (s : State) : (clearDrop s).limbs = s.limbs := rfl
@[simp] theorem clearDrop_ctrl (s : State) : (clearDrop s).ctrl = s.ctrl := rfl
@[simp] theorem clearDrop_status (s : State) : (clearDrop s).status = s.status.withoutDrop := rfl
@[simp] theorem clearDrop_faultcmd (s : State) : (clearDrop s).faultcmd = s.faultcmd := rfl
@[simp] theorem clearDrop_pending (s : State) : (clearDrop s).pending = s.pending := rfl
@[simp] theorem clearDrop_replies (s : State) : (clearDrop s).replies = s.replies := rfl

/-! ### answer -/

@[simp] theorem answer_xs (s : State) (h : Nat) (p : Response) : (s.answer h p).xs = s.xs := rfl
@[simp] theorem answer_limbs (s : State) (h : Nat) (p : Response) : (s.answer h p).limbs = s.limbs := rfl
@[simp] theorem answer_ctrl (s : State) (h : Nat) (p : Response) : (s.answer h p).ctrl = s.ctrl := rfl
@[simp] theorem answer_status (s : State) (h : Nat) (p : Response) : (s.answer h p).status = s.status := rfl
@[simp] theorem answer_faultcmd (s : State) (h : Nat) (p : Response) : (s.answer h p).faultcmd = s.faultcmd := rfl
@[simp] theorem answer_pending (s : State) (h : Nat) (p : Response) : (s.answer h p).pending = s.pending := rfl
@[simp] theorem answer_replies (s : State) (h : Nat) (p : Response) : (s.answer h p).replies = s.replies ++ [⟨h, p⟩] :=
  rfl

/-! ### writeStatus and applyIf -/

theorem applyIf_true (f : State → State) (s : State) : applyIf true f s = f s := rfl

theorem applyIf_false (f : State → State) (s : State) : applyIf false f s = s := rfl

/-- A field an update leaves alone is left alone by its conditional form. -/
theorem applyIf_same {α : Type} (g : State → α) (b : Bool) (f : State → State) (s : State) (h : g (f s) = g s) :
    g (applyIf b f s) = g s := by
  cases b
  · rfl
  · exact h

@[simp] theorem writeStatus_xs (s : State) (v : Word) : (s.writeStatus v).xs = s.xs := by
  unfold State.writeStatus
  rw [applyIf_same State.xs _ _ _ rfl, applyIf_same State.xs _ _ _ rfl, applyIf_same State.xs _ _ _ rfl]

@[simp] theorem writeStatus_limbs (s : State) (v : Word) : (s.writeStatus v).limbs = s.limbs := by
  unfold State.writeStatus
  rw [applyIf_same State.limbs _ _ _ rfl, applyIf_same State.limbs _ _ _ rfl, applyIf_same State.limbs _ _ _ rfl]

@[simp] theorem writeStatus_ctrl (s : State) (v : Word) : (s.writeStatus v).ctrl = s.ctrl := by
  unfold State.writeStatus
  rw [applyIf_same State.ctrl _ _ _ rfl, applyIf_same State.ctrl _ _ _ rfl, applyIf_same State.ctrl _ _ _ rfl]

@[simp] theorem writeStatus_pending (s : State) (v : Word) : (s.writeStatus v).pending = s.pending := by
  unfold State.writeStatus
  rw [applyIf_same State.pending _ _ _ rfl, applyIf_same State.pending _ _ _ rfl, applyIf_same State.pending _ _ _ rfl]

@[simp] theorem writeStatus_replies (s : State) (v : Word) : (s.writeStatus v).replies = s.replies := by
  unfold State.writeStatus
  rw [applyIf_same State.replies _ _ _ rfl, applyIf_same State.replies _ _ _ rfl, applyIf_same State.replies _ _ _ rfl]

end Sys2Proof.Machine
end

