-- ==== Sys2Proof/Laws/Registers.lean ====
section
/-! SUPPORT. Reading data registers and limbs after the named updates, and what each update does as a whole, in the
terms of Safety.lean. -/

namespace Sys2Proof.Machine

/-! ### Data registers -/

@[simp] theorem readX_zero (s : State) : s.readX 0#4 = 0#64 := by simp [State.readX]

/-- A read of a data register depends on `xs` alone. -/
theorem readX_congr {s t : State} (h : t.xs = s.xs) (r : Reg) : t.readX r = s.readX r := by
  simp [State.readX, h]

theorem readX_writeX (s : State) (r q : Reg) (v : Word) :
    (s.writeX r v).readX q = if q = r ∧ r ≠ 0#4 then v else s.readX q := by
  unfold State.readX State.writeX
  by_cases hq : q = 0#4 <;> by_cases hr : r = 0#4
  · simp [hq, hr]
  · simp only [hq, if_true]
    rw [if_neg]
    rintro ⟨h, -⟩
    exact hr h.symm
  · simp [hr]
  · simp only [hq, hr, if_false, ne_eq, not_false_eq_true, and_true]
    have hq' : q.toNat ≠ 0 := fun h => hq (BitVec.eq_of_toNat_eq h)
    have hr' : r.toNat ≠ 0 := fun h => hr (BitVec.eq_of_toNat_eq h)
    have hlt := r.isLt
    by_cases h : q = r
    · subst h
      have : q.toNat - 1 < 15 := by omega
      simp [this]
    · have hne : r.toNat - 1 ≠ q.toNat - 1 := by
        intro he
        exact h (BitVec.eq_of_toNat_eq (by omega))
      simp [h, hne]

@[simp] theorem readX_writeX_self (s : State) {r : Reg} (h : r ≠ 0#4) (v : Word) : (s.writeX r v).readX r = v := by
  simp [readX_writeX, h]

@[simp] theorem readX_writeX_other (s : State) {r q : Reg} (h : q ≠ r) (v : Word) :
    (s.writeX r v).readX q = s.readX q := by
  simp [readX_writeX, h]

@[simp] theorem readX_pending (s : State) (p : List PortEvent) (r : Reg) :
    ({ s with pending := p } : State).readX r = s.readX r := rfl

@[simp] theorem readX_withLimbs (s : State) (l : Vector Word 8) (r : Reg) : (s.withLimbs l).readX r = s.readX r := rfl

@[simp] theorem readX_writeLimb (s : State) (j : LimbIndex) (v : Word) (r : Reg) :
    (s.writeLimb j v).readX r = s.readX r := rfl

@[simp] theorem readX_writeCtrl (s : State) (v : Word) (r : Reg) : (s.writeCtrl v).readX r = s.readX r := rfl

@[simp] theorem readX_writeStatus (s : State) (v : Word) (r : Reg) : (s.writeStatus v).readX r = s.readX r :=
  readX_congr (writeStatus_xs s v) r

@[simp] theorem readX_noteCarry (s : State) (c : Word) (r : Reg) : (s.noteCarry c).readX r = s.readX r := rfl

@[simp] theorem readX_raiseBlockError (s : State) (c : Cause) (w : Word) (r : Reg) :
    (raiseBlockError c w s).readX r = s.readX r := rfl

@[simp] theorem readX_discardCommand (s : State) (r : Reg) : (discardCommand s).readX r = s.readX r := rfl

@[simp] theorem readX_answer (s : State) (h : Nat) (p : Response) (r : Reg) : (s.answer h p).readX r = s.readX r := rfl

/-! ### Limbs -/

theorem limbAt_withLimb (l : Vector Word 8) (j k : Nat) (v : Word) :
    limbAt (withLimb l j v) k = if k = j ∧ j < 8 then v else limbAt l k := by
  unfold limbAt withLimb
  rw [Vector.getElem?_setIfInBounds]
  by_cases h : j = k
  · subst h
    by_cases hj : j < 8
    · simp [hj]
    · simp [hj]
  · have h' : ¬ k = j := fun e => h e.symm
    simp [h, h']

/-- A limb past the file reads 0. -/
theorem limbAt_of_le (l : Vector Word 8) {k : Nat} (h : 8 ≤ k) : limbAt l k = 0#64 := by
  unfold limbAt
  rw [Vector.getElem?_eq_none h]
  rfl

/-- Two limb files that read alike are equal. -/
theorem limbs_ext {l m : Vector Word 8} (h : ∀ k, k < 8 → limbAt l k = limbAt m k) : l = m := by
  apply Vector.ext
  intro i hi
  have := h i hi
  simpa [limbAt, hi] using this

/-- A read of a limb depends on `limbs` alone. -/
theorem readLimb_congr {s t : State} (h : t.limbs = s.limbs) (j : LimbIndex) : t.readLimb j = s.readLimb j := by
  simp [State.readLimb, h]

@[simp] theorem readLimb_writeX (s : State) (r : Reg) (v : Word) (j : LimbIndex) :
    (s.writeX r v).readLimb j = s.readLimb j := readLimb_congr (writeX_limbs s r v) j

theorem readLimb_writeLimb (s : State) (j k : LimbIndex) (v : Word) :
    (s.writeLimb j v).readLimb k = if k = j then v else s.readLimb k := by
  simp only [State.readLimb, writeLimb_limbs, limbAt_withLimb, j.isLt, and_true, Fin.ext_iff]

@[simp] theorem readLimb_withLimbs (s : State) (l : Vector Word 8) (j : LimbIndex) :
    (s.withLimbs l).readLimb j = limbAt l j.val := rfl

@[simp] theorem readLimb_writeCtrl (s : State) (v : Word) (j : LimbIndex) :
    (s.writeCtrl v).readLimb j = s.readLimb j := rfl

@[simp] theorem readLimb_writeStatus (s : State) (v : Word) (j : LimbIndex) :
    (s.writeStatus v).readLimb j = s.readLimb j := readLimb_congr (writeStatus_limbs s v) j

@[simp] theorem readLimb_pending (s : State) (p : List PortEvent) (j : LimbIndex) :
    ({ s with pending := p } : State).readLimb j = s.readLimb j := rfl

@[simp] theorem readLimb_noteCarry (s : State) (c : Word) (j : LimbIndex) :
    (s.noteCarry c).readLimb j = s.readLimb j := rfl

@[simp] theorem readLimb_raiseBlockError (s : State) (c : Cause) (w : Word) (j : LimbIndex) :
    (raiseBlockError c w s).readLimb j = s.readLimb j := rfl

@[simp] theorem readLimb_answer (s : State) (h : Nat) (p : Response) (j : LimbIndex) :
    (s.answer h p).readLimb j = s.readLimb j := rfl

/-! ### What an update does as a whole -/

theorem writeX_writesX (s : State) (r : Reg) (v : Word) : WritesX r v s (s.writeX r v) :=
  fun q => readX_writeX s r q v

/-- Writing one data register writes it and nothing else. -/
theorem writeX_writesOnlyX (s : State) (r : Reg) (v : Word) : WritesOnlyX r v s (s.writeX r v) :=
  ⟨writeX_writesX s r v, fun j => readLimb_writeX s r v j, writeX_ctrl s r v, writeX_status s r v,
    writeX_faultcmd s r v, writeX_pending s r v, writeX_replies s r v⟩

/-- Taking a BlockError is error entry, and leaves the port. -/
theorem raiseBlockError_entered (c : Cause) (w : Word) (s : State) :
    ErrorEntered c w s (raiseBlockError c w s) ∧ PortKept s (raiseBlockError c w s) :=
  ⟨⟨rfl, rfl, rfl, fun _ => rfl, fun _ => rfl, rfl, rfl, rfl⟩, rfl, rfl⟩

/-- Reading the written register, for a register that holds what is written. -/
theorem WritesX.read_self {rd : Reg} {v : Word} {s t : State} (h : WritesX rd v s t) (hrd : rd ≠ 0#4) :
    t.readX rd = v := by
  rw [h rd, if_pos ⟨rfl, hrd⟩]

/-- Reading any other register. -/
theorem WritesX.read_other {rd r : Reg} {v : Word} {s t : State} (h : WritesX rd v s t) (hr : r ≠ rd) :
    t.readX r = s.readX r := by
  rw [h r, if_neg (fun e => hr e.1)]

end Sys2Proof.Machine
end

