-- ==== Sys2Proof/Laws/Limbs.lean ====
section
/-! SUPPORT. What the limb loops of LDIVMOD and LMULADD do, and how a limb file's value splits. -/

namespace Sys2Proof.Machine

/-! ### LDIVMOD's loop (R121) -/

theorem toNat_divTemp (lw : Nat) (rem limb : Word) :
    (divTemp lw rem limb).toNat = (rem.toNat * 2 ^ lw + limb.toNat) % 2 ^ 64 := by
  rw [divTemp, BitVec.toNat_ofNat]

/-- The loop's two results, limb by limb: limb i of the first n gets the step's quotient, the others stay, and the
remainder is the last running one. -/
theorem divLoop_spec (lw : Nat) (d m : Word) (n : Nat) (hn : n ≤ 8) (limbs : Vector Word 8) (r : Word) :
    ∃ rem : Nat → Word, rem n = r ∧ (divLoop lw d m n limbs r).2 = rem 0 ∧
      (∀ i, i < n →
        limbAt (divLoop lw d m n limbs r).1 i = fastDiv (divTemp lw (rem (i + 1)) (limbAt limbs i)) m ∧
          rem i = fastMod (divTemp lw (rem (i + 1)) (limbAt limbs i)) m d) ∧
      ∀ i, n ≤ i → limbAt (divLoop lw d m n limbs r).1 i = limbAt limbs i := by
  induction n generalizing limbs r with
  | zero => exact ⟨fun _ => r, rfl, rfl, by simp, fun _ _ => rfl⟩
  | succ k ih =>
    simp only [divLoop]
    obtain ⟨rem, h0, hres, hin, hout⟩ := ih (by omega)
      (withLimb limbs k (fastDiv (divTemp lw r (limbAt limbs k)) m))
      (fastMod (divTemp lw r (limbAt limbs k)) m d)
    have hread : ∀ i, limbAt (withLimb limbs k (fastDiv (divTemp lw r (limbAt limbs k)) m)) i =
        if i = k then fastDiv (divTemp lw r (limbAt limbs k)) m else limbAt limbs i := by
      intro i
      rw [limbAt_withLimb]
      simp [show k < 8 by omega]
    refine ⟨fun i => if i ≤ k then rem i else r, by simp, by simp [hres], ?_, ?_⟩
    · intro i hi
      rcases Nat.lt_or_ge i k with hlt | hge
      · have := hin i hlt
        rw [hread i, if_neg (by omega)] at this
        simpa [show i ≤ k by omega, show i + 1 ≤ k by omega] using this
      · obtain rfl : i = k := by omega
        rw [hout i (by omega), hread i, if_pos rfl]
        simp [h0]
    · intro i hi
      rw [hout i (by omega), hread i, if_neg (by omega)]

/-! ### LMULADD's loop (R122) -/

/-- The loop's two results, limb by limb: limbs i to i+n−1 get the low parts, the others stay, and the carry is the last
running one. -/
theorem mulAddLoop_spec (lw : Nat) (hlw : lw ≤ 64) (r : Word) (n i : Nat) (hn : i + n ≤ 8) (limbs : Vector Word 8)
    (c : Word) :
    ∃ carry : Nat → Word, carry i = c ∧ (mulAddLoop lw r n i limbs c).2 = carry (i + n) ∧
      (∀ j, i ≤ j → j < i + n →
        let p := (limbAt limbs j).toNat * r.toNat + (carry j).toNat
        (limbAt (mulAddLoop lw r n i limbs c).1 j).toNat = p % 2 ^ lw ∧
          (carry (j + 1)).toNat = p / 2 ^ lw % 2 ^ 64) ∧
      ∀ j, j < i ∨ i + n ≤ j → limbAt (mulAddLoop lw r n i limbs c).1 j = limbAt limbs j := by
  induction n generalizing i limbs c with
  | zero => exact ⟨fun _ => c, rfl, rfl, by omega, fun _ _ => rfl⟩
  | succ n ih =>
    simp only [mulAddLoop]
    generalize hp : (limbAt limbs i).toNat * r.toNat + c.toNat = p
    obtain ⟨carry, h0, hres, hin, hout⟩ := ih (i + 1) (by omega)
      (withLimb limbs i (BitVec.ofNat 64 (p % 2 ^ lw))) (BitVec.ofNat 64 (p / 2 ^ lw))
    have hread : ∀ j, limbAt (withLimb limbs i (BitVec.ofNat 64 (p % 2 ^ lw))) j =
        if j = i then BitVec.ofNat 64 (p % 2 ^ lw) else limbAt limbs j := by
      intro j
      rw [limbAt_withLimb]
      simp [show i < 8 by omega]
    refine ⟨fun j => if j ≤ i then c else carry j, by simp, ?_, ?_, ?_⟩
    · rw [hres]
      simp [show i + 1 + n = i + (n + 1) by omega]
    · intro j hj hjn
      rcases Nat.lt_or_ge i j with hlt | hge
      · have := hin j hlt (by omega)
        rw [hread j, if_neg (by omega)] at this
        simpa [show ¬ j ≤ i by omega, show ¬ j + 1 ≤ i by omega] using this
      · obtain rfl : j = i := by omega
        rw [hout j (by omega), hread j, if_pos rfl]
        have hmod : p % 2 ^ lw < 2 ^ 64 :=
          lt_of_lt_of_le (Nat.mod_lt _ (by positivity)) (Nat.pow_le_pow_right (by norm_num) hlw)
        simpa [h0, hp] using hmod
    · intro j hj
      rw [hout j (by omega), hread j, if_neg (by omega)]

/-! ### The value of a limb file (R120) -/

/-- A limb file's value depends on the limbs it sums alone. -/
theorem limbSum_congr (lw n : Nat) (l m : Vector Word 8) (h : ∀ i, i < n → limbAt l i = limbAt m i) :
    limbSum lw l n = limbSum lw m n := by
  induction n with
  | zero => rfl
  | succ n ih => rw [limbSum, limbSum, ih fun i hi => h i (by omega), h n (by omega)]

/-- Zero limbs at the top add nothing. -/
theorem limbSum_zero_above (lw k n : Nat) (l : Vector Word 8) (hkn : k ≤ n)
    (h : ∀ i, k ≤ i → i < n → limbAt l i = 0#64) : limbSum lw l n = limbSum lw l k := by
  induction n with
  | zero =>
    obtain rfl : k = 0 := by omega
    rfl
  | succ n ih =>
    rcases Nat.lt_or_ge n k with hlt | hge
    · obtain rfl : k = n + 1 := by omega
      rfl
    · rw [limbSum, ih hge fun i h1 h2 => h i h1 (by omega), h n hge (by omega)]
      simp

/-- Well-formed limbs hold a value below 2^(LW·n). -/
theorem limbSum_lt (lw n : Nat) (l : Vector Word 8) (h : ∀ i, i < n → (limbAt l i).toNat < 2 ^ lw) :
    limbSum lw l n < 2 ^ (lw * n) := by
  induction n with
  | zero => simp [limbSum]
  | succ n ih =>
    have h1 := ih fun i hi => h i (by omega)
    have h2 := h n (by omega)
    rw [limbSum, Nat.mul_succ, pow_add]
    have h3 : (limbAt l n).toNat + 1 ≤ 2 ^ lw := h2
    have h4 : ((limbAt l n).toNat + 1) * 2 ^ (lw * n) ≤ 2 ^ lw * 2 ^ (lw * n) := Nat.mul_le_mul_right _ h3
    have h5 : 2 ^ (lw * n) * 2 ^ lw = 2 ^ lw * 2 ^ (lw * n) := Nat.mul_comm _ _
    have h6 : ((limbAt l n).toNat + 1) * 2 ^ (lw * n) = (limbAt l n).toNat * 2 ^ (lw * n) + 2 ^ (lw * n) := by ring
    omega

end Sys2Proof.Machine
end

