-- ==== Sys2Proof/Laws/Arithmetic.lean ====
section
/-! SUPPORT. The arithmetic of the multiply-and-shift division (41_cdiv.md rule R106) and of whole passes over the limbs
(42_mlbc.md rules R123, R128). -/

namespace Sys2Proof.Machine

/-! ### One multiply-and-shift division -/

/-- `a·M(d)·d`, split at the quotient: R106's expansion of `a·(2^64 + e)`. -/
theorem mul_magicNat_mul (a d : Nat) (hd : 1 ≤ d) :
    a * magicNat d * d = d * (a / d) * 2 ^ 64 + (a % d * 2 ^ 64 + a * errorTerm d) := by
  have hm := (magicNat_mul d hd).1
  generalize magicNat d = m at hm ⊢
  generalize errorTerm d = e at hm ⊢
  have ha : d * (a / d) + a % d = a := Nat.div_add_mod a d
  calc a * m * d = a * (m * d) := by ring
    _ = a * 2 ^ 64 + a * e := by rw [hm]; ring
    _ = (d * (a / d) + a % d) * 2 ^ 64 + a * e := by rw [ha]
    _ = _ := by ring

/-- The multiply-and-shift quotient is the true one exactly when the remainder's share and the error stay below the
divisor's. -/
theorem fastQuotient_eq_iff (a d : Nat) (hd : 1 ≤ d) :
    a * magicNat d / 2 ^ 64 = a / d ↔ a % d * 2 ^ 64 + a * errorTerm d < d * 2 ^ 64 := by
  have key := mul_magicNat_mul a d hd
  generalize magicNat d = m at key ⊢
  generalize errorTerm d = e at key ⊢
  generalize a / d = q at key ⊢
  generalize a % d = r at key ⊢
  have hge : q * 2 ^ 64 ≤ a * m := by
    have h : d * (q * 2 ^ 64) ≤ d * (a * m) := by
      calc d * (q * 2 ^ 64) = d * q * 2 ^ 64 := by ring
        _ ≤ a * m * d := by rw [key]; omega
        _ = d * (a * m) := by ring
    exact Nat.le_of_mul_le_mul_left h hd
  have hnext : (q + 1) * 2 ^ 64 * d = d * q * 2 ^ 64 + d * 2 ^ 64 := by ring
  rw [Nat.div_eq_iff (by norm_num)]
  constructor
  · rintro ⟨-, h⟩
    have h1 : a * m < (q + 1) * 2 ^ 64 := by omega
    have h2 : a * m * d < (q + 1) * 2 ^ 64 * d := Nat.mul_lt_mul_of_pos_right h1 hd
    omega
  · intro h
    have h1 : a * m * d < (q + 1) * 2 ^ 64 * d := by omega
    have h2 := Nat.lt_of_mul_lt_mul_right h1
    exact ⟨hge, by omega⟩

/-- Where the quotient is the true one, the remainder is the true one plus the whole part of the error. -/
theorem fastRemainder_of_quotient (a d : Nat) (hd : 1 ≤ d) (h : a * magicNat d / 2 ^ 64 = a / d) :
    a * magicNat d % 2 ^ 64 * d / 2 ^ 64 = a % d + a * errorTerm d / 2 ^ 64 := by
  have key := mul_magicNat_mul a d hd
  generalize magicNat d = m at key h ⊢
  generalize errorTerm d = e at key ⊢
  generalize a / d = q at key h ⊢
  generalize a % d = r at key ⊢
  have hmod : a * m % 2 ^ 64 = a * m - q * 2 ^ 64 := by
    have := Nat.div_add_mod (a * m) (2 ^ 64)
    rw [h] at this
    omega
  have hlow : a * m % 2 ^ 64 * d = r * 2 ^ 64 + a * e := by
    have : q * 2 ^ 64 * d = d * q * 2 ^ 64 := by ring
    rw [hmod, Nat.sub_mul, key]
    omega
  rw [hlow, Nat.add_comm, Nat.add_mul_div_right _ _ (by norm_num), Nat.add_comm]

/-- Where the error is below 2^64, both results are the true ones. -/
theorem fastDivision_exact (a d : Nat) (hd : 1 ≤ d) (h : a * errorTerm d < 2 ^ 64) :
    a * magicNat d / 2 ^ 64 = a / d ∧ a * magicNat d % 2 ^ 64 * d / 2 ^ 64 = a % d := by
  have hr : (a % d + 1) * 2 ^ 64 ≤ d * 2 ^ 64 := Nat.mul_le_mul_right _ (Nat.mod_lt a hd)
  have hq := (fastQuotient_eq_iff a d hd).mpr (by
    have : (a % d + 1) * 2 ^ 64 = a % d * 2 ^ 64 + 2 ^ 64 := by ring
    omega)
  exact ⟨hq, by rw [fastRemainder_of_quotient a d hd hq, Nat.div_eq_of_lt h, Nat.add_zero]⟩

/-! ### One pass over the limbs -/

/-- A limb file's value after one limb within the sum's reach is replaced, split at that limb. -/
theorem limbSum_withLimb_below (lw n k : Nat) (l : Vector Word 8) (v : Word) (h : n ≤ k) :
    limbSum lw (withLimb l k v) n = limbSum lw l n :=
  limbSum_congr lw n _ _ fun i hi => by
    rw [limbAt_withLimb, if_neg (by omega)]

/-- LDIVMOD's loop divides, wherever each step's multiply-and-shift is exact: the running remainder above the limbs is
the top digit. -/
theorem divLoop_exact (lw d : Nat) (dw m : Word) (hdw : dw.toNat = d) (hm : m.toNat = magicNat d) (hd : 1 ≤ d)
    (hfit : d * 2 ^ lw ≤ 2 ^ 64) (herr : ∀ a, a < d * 2 ^ lw → a * errorTerm d < 2 ^ 64) (k : Nat) (hk : k ≤ 8)
    (limbs : Vector Word 8) (hl : ∀ i, i < k → (limbAt limbs i).toNat < 2 ^ lw) (r : Word) (hr : r.toNat < d) :
    let out := divLoop lw dw m k limbs r
    limbSum lw out.1 k * d + out.2.toNat = r.toNat * 2 ^ (lw * k) + limbSum lw limbs k ∧ out.2.toNat < d ∧
      ∀ i, i < k → (limbAt out.1 i).toNat < 2 ^ lw := by
  induction k generalizing limbs r with
  | zero => simpa [divLoop, limbSum] using hr
  | succ k ih =>
    simp only [divLoop]
    have hlk := hl k (by omega)
    have htemp : r.toNat * 2 ^ lw + (limbAt limbs k).toNat < d * 2 ^ lw := by
      have h1 : (r.toNat + 1) * 2 ^ lw ≤ d * 2 ^ lw := Nat.mul_le_mul_right _ hr
      have h2 : (r.toNat + 1) * 2 ^ lw = r.toNat * 2 ^ lw + 2 ^ lw := by ring
      omega
    have ht : (divTemp lw r (limbAt limbs k)).toNat = r.toNat * 2 ^ lw + (limbAt limbs k).toNat := by
      rw [toNat_divTemp, Nat.mod_eq_of_lt (by omega)]
    obtain ⟨hq, hrem⟩ := fastDivision_exact _ d hd (herr _ htemp)
    rw [← ht, ← hm] at hq hrem
    rw [← toNat_fastDiv] at hq
    rw [← hdw, ← toNat_fastMod, hdw] at hrem
    rw [ht] at hq hrem
    generalize fastDiv (divTemp lw r (limbAt limbs k)) m = qw at hq ⊢
    generalize fastMod (divTemp lw r (limbAt limbs k)) m dw = rw' at hrem ⊢
    generalize htn : r.toNat * 2 ^ lw + (limbAt limbs k).toNat = t at *
    have hsplit := Nat.div_add_mod t d
    have hkeep := (divLoop_spec lw dw m k (by omega) (withLimb limbs k qw) rw').choose_spec.2.2.2 k (le_refl k)
    have hread : limbAt (withLimb limbs k qw) k = qw := by
      rw [limbAt_withLimb, if_pos ⟨rfl, by omega⟩]
    obtain ⟨hsum, hlt, hsmall⟩ := ih (by omega) (withLimb limbs k qw)
      (fun i hi => by
        rw [limbAt_withLimb, if_neg (by omega)]
        exact hl i (by omega))
      rw' (by
        rw [hrem]
        exact Nat.mod_lt _ hd)
    rw [limbSum_withLimb_below lw k k limbs qw (le_refl k)] at hsum
    generalize divLoop lw dw m k (withLimb limbs k qw) rw' = out at *
    have hquot : t / d < 2 ^ lw := by
      rw [Nat.div_lt_iff_lt_mul hd, Nat.mul_comm]
      exact htemp
    refine ⟨?_, hlt, fun i hi => ?_⟩
    · rw [limbSum, limbSum, hkeep, hread, hq, Nat.mul_succ, pow_add]
      generalize 2 ^ (lw * k) = p at *
      rw [hrem] at hsum
      calc (limbSum lw out.1 k + t / d * p) * d + out.2.toNat
          = (limbSum lw out.1 k * d + out.2.toNat) + d * (t / d) * p := by ring
        _ = t % d * p + limbSum lw limbs k + d * (t / d) * p := by rw [hsum]
        _ = (d * (t / d) + t % d) * p + limbSum lw limbs k := by ring
        _ = (r.toNat * 2 ^ lw + (limbAt limbs k).toNat) * p + limbSum lw limbs k := by rw [hsplit, htn]
        _ = _ := by ring
    · rcases Nat.lt_or_ge i k with h | h
      · exact hsmall i h
      · obtain rfl : i = k := by omega
        rw [hkeep, hread, hq]
        exact hquot

/-- LMULADD's loop multiplies and adds exactly on limbs below 2^LW: what does not fit is the carry. -/
theorem mulAddLoop_exact (lw : Nat) (hlw : lw ≤ 64) (r : Word) (n i : Nat) (hn : i + n ≤ 8) (limbs : Vector Word 8)
    (hl : ∀ j, i ≤ j → j < i + n → (limbAt limbs j).toNat < 2 ^ lw) (c : Word) :
    let out := mulAddLoop lw r n i limbs c
    limbSum lw out.1 (i + n) + out.2.toNat * 2 ^ (lw * (i + n)) + limbSum lw limbs i * r.toNat =
        limbSum lw limbs i + limbSum lw limbs (i + n) * r.toNat + c.toNat * 2 ^ (lw * i) ∧
      ∀ j, i ≤ j → j < i + n → (limbAt out.1 j).toNat < 2 ^ lw := by
  induction n generalizing i limbs c with
  | zero =>
    simp only [mulAddLoop, Nat.add_zero]
    exact ⟨by ring, by omega⟩
  | succ n ih =>
    simp only [mulAddLoop]
    generalize hp : (limbAt limbs i).toNat * r.toNat + c.toNat = p
    have hli := hl i (le_refl i) (by omega)
    have hpos : 0 < 2 ^ lw := by positivity
    have hcarry : p / 2 ^ lw < 2 ^ 64 := by
      rw [Nat.div_lt_iff_lt_mul hpos]
      have hr := r.isLt
      have hc := c.isLt
      have h1 : (limbAt limbs i).toNat * r.toNat ≤ (2 ^ lw - 1) * (2 ^ 64 - 1) := Nat.mul_le_mul (by omega) (by omega)
      have h2 : (2 ^ lw - 1) * (2 ^ 64 - 1) + (2 ^ 64 - 1) = 2 ^ lw * (2 ^ 64 - 1) := by
        obtain ⟨x, hx⟩ : ∃ x, 2 ^ lw = x + 1 := ⟨2 ^ lw - 1, by omega⟩
        rw [hx, Nat.add_sub_cancel]
        ring
      have h3 : 2 ^ lw * (2 ^ 64 - 1) < 2 ^ 64 * 2 ^ lw := by
        rw [Nat.mul_comm (2 ^ 64)]
        exact Nat.mul_lt_mul_of_pos_left (by norm_num) hpos
      omega
    have hlow : p % 2 ^ lw < 2 ^ lw := Nat.mod_lt _ hpos
    have hcut : (BitVec.ofNat 64 (p % 2 ^ lw)).toNat = p % 2 ^ lw := by
      rw [BitVec.toNat_ofNat, Nat.mod_eq_of_lt]
      exact lt_of_lt_of_le hlow (Nat.pow_le_pow_right (by norm_num) hlw)
    have hc' : (BitVec.ofNat 64 (p / 2 ^ lw)).toNat = p / 2 ^ lw := by
      rw [BitVec.toNat_ofNat, Nat.mod_eq_of_lt hcarry]
    have hsplit := Nat.div_add_mod p (2 ^ lw)
    generalize BitVec.ofNat 64 (p % 2 ^ lw) = low at hcut ⊢
    generalize BitVec.ofNat 64 (p / 2 ^ lw) = c' at hc' ⊢
    have hread : limbAt (withLimb limbs i low) i = low := by
      rw [limbAt_withLimb, if_pos ⟨rfl, by omega⟩]
    have hother : ∀ j, j ≠ i → limbAt (withLimb limbs i low) j = limbAt limbs j := fun j hj => by
      rw [limbAt_withLimb, if_neg (by omega)]
    obtain ⟨hsum, hsmall⟩ := ih (i + 1) (by omega) (withLimb limbs i low)
      (fun j h1 h2 => by
        rw [hother j (by omega)]
        exact hl j (by omega) (by omega))
      c'
    have hkeep := (mulAddLoop_spec lw hlw r n (i + 1) (by omega) (withLimb limbs i low) c').choose_spec.2.2.2 i
      (.inl (by omega))
    have htop : ∀ k, i + 1 ≤ k → limbSum lw (withLimb limbs i low) k + (limbAt limbs i).toNat * 2 ^ (lw * i) =
        limbSum lw limbs k + low.toNat * 2 ^ (lw * i) := by
      intro k hk
      induction k with
      | zero => omega
      | succ k ihk =>
        rcases Nat.lt_or_ge i k with h | h
        · have := ihk h
          rw [limbSum, limbSum, hother k (by omega)]
          omega
        · obtain rfl : k = i := by omega
          rw [limbSum, limbSum, hread, limbSum_withLimb_below lw k k limbs low (le_refl k)]
          ring
    have h1 := htop (i + 1) (le_refl _)
    have h2 := htop (i + 1 + n) (by omega)
    rw [show i + (n + 1) = i + 1 + n by omega]
    generalize mulAddLoop lw r n (i + 1) (withLimb limbs i low) c' = out at *
    have hstep : limbSum lw limbs (i + 1) = limbSum lw limbs i + (limbAt limbs i).toNat * 2 ^ (lw * i) := rfl
    have hpow : 2 ^ (lw * (i + 1)) = 2 ^ (lw * i) * 2 ^ lw := by rw [Nat.mul_succ, pow_add]
    refine ⟨?_, fun j hj1 hj2 => ?_⟩
    · rw [hpow] at hsum
      rw [hcut] at h1 h2
      rw [hc'] at hsum
      rw [hstep] at h1
      generalize 2 ^ (lw * (i + 1 + n)) = top at *
      generalize 2 ^ (lw * i) = b at *
      generalize limbSum lw (withLimb limbs i low) (i + 1) = w1 at *
      generalize limbSum lw (withLimb limbs i low) (i + 1 + n) = w2 at *
      generalize limbSum lw limbs (i + 1 + n) = s2 at *
      generalize limbSum lw limbs i = s0 at *
      generalize limbSum lw out.1 (i + 1 + n) = o at *
      generalize (limbAt limbs i).toNat = x at *
      generalize r.toNat = rr at *
      generalize c.toNat = cc at *
      generalize out.2.toNat = oc at *
      generalize p / 2 ^ lw = pq at *
      generalize p % 2 ^ lw = pm at *
      generalize 2 ^ lw = base at *
      have e1 : w1 = s0 + pm * b := by omega
      have e2 : w2 * rr + x * b * rr = s2 * rr + pm * b * rr := by
        rw [← Nat.add_mul, h2, Nat.add_mul]
      have e3 : (base * pq + pm) * b = (x * rr + cc) * b := by rw [hsplit, hp]
      subst e1
      linarith [e2, e3, hsum]
    · rcases Nat.lt_or_ge i j with h | h
      · exact hsmall j h (by omega)
      · obtain rfl : j = i := by omega
        rw [hkeep, hread, hcut]
        exact hlow

end Sys2Proof.Machine
end

