-- ==== Sys2Proof/Laws/Encoding.lean ====
section
/-! SUPPORT. The fields of a packed command word, the opcode map, and the byte lanes of a word. -/

namespace Sys2Proof

/-! ### Fields of a packed command word (R71) -/

section Fields
variable (imm8 : BitVec 8) (rc rb ra rd : Reg) (op : BitVec 8)

@[simp] theorem packFields_op : ((packFields imm8 rc rb ra rd op).setWidth 64).extractLsb' 0 8 = op := by
  apply BitVec.eq_of_getLsbD_eq
  intro i hi
  simp only [packFields, BitVec.getLsbD_extractLsb', BitVec.getLsbD_setWidth, BitVec.getLsbD_append]
  simp [hi, show i < 64 by omega]

@[simp] theorem packFields_rd : ((packFields imm8 rc rb ra rd op).setWidth 64).extractLsb' 8 4 = rd := by
  apply BitVec.eq_of_getLsbD_eq
  intro i hi
  simp only [packFields, BitVec.getLsbD_extractLsb', BitVec.getLsbD_setWidth, BitVec.getLsbD_append]
  simp [hi, show 8 + i < 64 by omega]

@[simp] theorem packFields_ra : ((packFields imm8 rc rb ra rd op).setWidth 64).extractLsb' 12 4 = ra := by
  apply BitVec.eq_of_getLsbD_eq
  intro i hi
  simp only [packFields, BitVec.getLsbD_extractLsb', BitVec.getLsbD_setWidth, BitVec.getLsbD_append]
  simp [hi, show 12 + i < 64 by omega, show ¬ 12 + i < 8 by omega, show ¬ 12 + i - 8 < 4 by omega,
    show 12 + i - 8 - 4 = i by omega]

@[simp] theorem packFields_rb : ((packFields imm8 rc rb ra rd op).setWidth 64).extractLsb' 16 4 = rb := by
  apply BitVec.eq_of_getLsbD_eq
  intro i hi
  simp only [packFields, BitVec.getLsbD_extractLsb', BitVec.getLsbD_setWidth, BitVec.getLsbD_append]
  simp [hi, show 16 + i < 64 by omega, show ¬ 16 + i < 8 by omega, show ¬ 16 + i - 8 < 4 by omega,
    show ¬ 16 + i - 8 - 4 < 4 by omega, show 16 + i - 8 - 4 - 4 = i by omega]

@[simp] theorem packFields_rc : ((packFields imm8 rc rb ra rd op).setWidth 64).extractLsb' 20 4 = rc := by
  apply BitVec.eq_of_getLsbD_eq
  intro i hi
  simp only [packFields, BitVec.getLsbD_extractLsb', BitVec.getLsbD_setWidth, BitVec.getLsbD_append]
  simp [hi, show 20 + i < 64 by omega, show ¬ 20 + i < 8 by omega, show ¬ 20 + i - 8 < 4 by omega,
    show ¬ 20 + i - 8 - 4 < 4 by omega, show ¬ 20 + i - 8 - 4 - 4 < 4 by omega, show 20 + i - 8 - 4 - 4 - 4 = i by omega]

@[simp] theorem packFields_imm8 : ((packFields imm8 rc rb ra rd op).setWidth 64).extractLsb' 24 8 = imm8 := by
  apply BitVec.eq_of_getLsbD_eq
  intro i hi
  simp only [packFields, BitVec.getLsbD_extractLsb', BitVec.getLsbD_setWidth, BitVec.getLsbD_append]
  simp [hi, show 24 + i < 64 by omega, show ¬ 24 + i < 8 by omega, show ¬ 24 + i - 8 < 4 by omega,
    show ¬ 24 + i - 8 - 4 < 4 by omega, show ¬ 24 + i - 8 - 4 - 4 < 4 by omega,
    show ¬ 24 + i - 8 - 4 - 4 - 4 < 4 by omega, show 24 + i - 8 - 4 - 4 - 4 - 4 = i by omega]

@[simp] theorem packFields_low : ((packFields imm8 rc rb ra rd op).setWidth 64).extractLsb' 0 32 =
    packFields imm8 rc rb ra rd op := by
  apply BitVec.eq_of_getLsbD_eq
  intro i hi
  simp [hi, show i < 64 by omega]

@[simp] theorem packFields_high : ((packFields imm8 rc rb ra rd op).setWidth 64).extractLsb' 32 32 = 0#32 := by
  apply BitVec.eq_of_getLsbD_eq
  intro i hi
  simp

end Fields

/-- A 64-bit value with bits 63:32 zero is its six fields, packed. -/
theorem eq_packFields (w : Word) (h : w.extractLsb' 32 32 = 0#32) :
    w = (packFields (w.extractLsb' 24 8) (w.extractLsb' 20 4) (w.extractLsb' 16 4) (w.extractLsb' 12 4)
      (w.extractLsb' 8 4) (w.extractLsb' 0 8)).setWidth 64 := by
  have hi : ∀ i, 32 ≤ i → w.getLsbD i = false := by
    intro i hi
    have := congrArg (fun v => BitVec.getLsbD v (i - 32)) h
    by_cases h64 : i < 64
    · simpa [show i - 32 < 32 by omega, show 32 + (i - 32) = i by omega] using this
    · exact BitVec.getLsbD_of_ge _ _ (by omega)
  apply BitVec.eq_of_getLsbD_eq
  intro i h64
  simp only [packFields, BitVec.getLsbD_setWidth, BitVec.getLsbD_append, BitVec.getLsbD_extractLsb']
  rcases Nat.lt_or_ge i 32 with h32 | h32
  · rcases Nat.lt_or_ge i 8 with h8 | h8
    · simp [h8, h64]
    rcases Nat.lt_or_ge i 12 with h12 | h12
    · simp [h64, show ¬ i < 8 by omega, show i - 8 < 4 by omega, show 8 + (i - 8) = i by omega]
    rcases Nat.lt_or_ge i 16 with h16 | h16
    · simp [h64, show ¬ i < 8 by omega, show ¬ i - 8 < 4 by omega, show i - 8 - 4 < 4 by omega,
        show 12 + (i - 8 - 4) = i by omega]
    rcases Nat.lt_or_ge i 20 with h20 | h20
    · simp [h64, show ¬ i < 8 by omega, show ¬ i - 8 < 4 by omega, show ¬ i - 8 - 4 < 4 by omega,
        show i - 8 - 4 - 4 < 4 by omega, show 16 + (i - 8 - 4 - 4) = i by omega]
    rcases Nat.lt_or_ge i 24 with h24 | h24
    · simp [h64, show ¬ i < 8 by omega, show ¬ i - 8 < 4 by omega, show ¬ i - 8 - 4 < 4 by omega,
        show ¬ i - 8 - 4 - 4 < 4 by omega, show i - 8 - 4 - 4 - 4 < 4 by omega,
        show 20 + (i - 8 - 4 - 4 - 4) = i by omega]
    · simp [h64, show ¬ i < 8 by omega, show ¬ i - 8 < 4 by omega, show ¬ i - 8 - 4 < 4 by omega,
        show ¬ i - 8 - 4 - 4 < 4 by omega, show ¬ i - 8 - 4 - 4 - 4 < 4 by omega,
        show i - 8 - 4 - 4 - 4 - 4 < 8 by omega, show 24 + (i - 8 - 4 - 4 - 4 - 4) = i by omega]
  · rw [hi i h32]
    simp [show ¬ i < 8 by omega, show ¬ i - 8 < 4 by omega, show ¬ i - 8 - 4 < 4 by omega,
      show ¬ i - 8 - 4 - 4 < 4 by omega, show ¬ i - 8 - 4 - 4 - 4 < 4 by omega,
      show ¬ i - 8 - 4 - 4 - 4 - 4 < 8 by omega]

/-! ### Masking a command word field by field (R75) -/

/-- AND works on each field by itself. -/
theorem packFields_and (i i' : BitVec 8) (c c' b b' a a' d d' : Reg) (o o' : BitVec 8) :
    packFields i c b a d o &&& packFields i' c' b' a' d' o' =
      packFields (i &&& i') (c &&& c') (b &&& b') (a &&& a') (d &&& d') (o &&& o') := by
  change ((i ++ c ++ b ++ a ++ d ++ o : BitVec (8 + 4 + 4 + 4 + 4 + 8)) &&&
    (i' ++ c' ++ b' ++ a' ++ d' ++ o' : BitVec (8 + 4 + 4 + 4 + 4 + 8))) = _
  rw [BitVec.and_append, BitVec.and_append, BitVec.and_append, BitVec.and_append, BitVec.and_append]
  rfl

/-- Equal command words have equal fields. -/
theorem packFields_inj {i i' : BitVec 8} {c c' b b' a a' d d' : Reg} {o o' : BitVec 8}
    (h : packFields i c b a d o = packFields i' c' b' a' d' o') :
    i = i' ∧ c = c' ∧ b = b' ∧ a = a' ∧ d = d' ∧ o = o' := by
  have h64 := congrArg (BitVec.setWidth 64) h
  refine ⟨?_, ?_, ?_, ?_, ?_, ?_⟩
  · simpa using congrArg (BitVec.extractLsb' 24 8) h64
  · simpa using congrArg (BitVec.extractLsb' 20 4) h64
  · simpa using congrArg (BitVec.extractLsb' 16 4) h64
  · simpa using congrArg (BitVec.extractLsb' 12 4) h64
  · simpa using congrArg (BitVec.extractLsb' 8 4) h64
  · simpa using congrArg (BitVec.extractLsb' 0 8) h64

/-- Which fields a row fixes, as all-ones and all-zeros fields. -/
def Opcode.fixedFields : Opcode → BitVec 8 × Reg × Reg × Reg × Reg
  | .nop => (0xFF, 0xF, 0xF, 0xF, 0xF)
  | .magic | .cmpmsb | .cmplsb | .cmplex | .getver | .getvar | .getvarlex | .getvarn => (0xFF, 0xF, 0xF, 0, 0)
  | .fdivn | .fdivw | .lmuladd | .expmsb | .explsb | .explex | .pext | .pdep => (0xFF, 0xF, 0, 0, 0)
  | .fmodn | .fmodw | .madd => (0xFF, 0, 0, 0, 0)
  | .ldivmod => (0xF8, 0, 0, 0xF, 0)
  | .lpack => (0xFF, 0xF, 0, 0, 0xF)
  | .lhi | .llo => (0xFF, 0xF, 0xF, 0xF, 0)

/-- The mask of a row, field by field. -/
theorem mask_eq (op : Opcode) : op.mask =
    packFields op.fixedFields.1 op.fixedFields.2.1 op.fixedFields.2.2.1 op.fixedFields.2.2.2.1
      op.fixedFields.2.2.2.2 0xFF := by
  cases op <;> decide

/-- The match word of a row, field by field. -/
theorem matchWord_eq (op : Opcode) : op.matchWord = packFields 0 0 0 0 0 op.code := by
  cases op <;> decide

/-- A packed command word fits its row exactly when its fixed operand fields are zero. -/
theorem fits_iff (op : Opcode) (imm8 : BitVec 8) (rc rb ra rd : Reg) :
    packFields imm8 rc rb ra rd op.code &&& op.mask = op.matchWord ↔
      imm8 &&& op.fixedFields.1 = 0 ∧ rc &&& op.fixedFields.2.1 = 0 ∧ rb &&& op.fixedFields.2.2.1 = 0 ∧
        ra &&& op.fixedFields.2.2.2.1 = 0 ∧ rd &&& op.fixedFields.2.2.2.2 = 0 := by
  rw [mask_eq, packFields_and, matchWord_eq]
  constructor
  · intro h
    obtain ⟨h1, h2, h3, h4, h5, -⟩ := packFields_inj h
    exact ⟨h1, h2, h3, h4, h5⟩
  · rintro ⟨h1, h2, h3, h4, h5⟩
    rw [h1, h2, h3, h4, h5]
    congr 1
    exact BitVec.and_allOnes

/-- R73's check on the immediate, as a mask. -/
theorem immediateLegal_iff (imm8 : BitVec 8) : immediateLegal imm8 = true ↔ imm8 &&& 0xF8 = 0 := by
  revert imm8
  decide

/-! ### The opcode map (R75) -/

/-- The opcode of a row names that row. -/
@[simp] theorem ofCode_code (op : Opcode) : Opcode.ofCode op.code = some op := by
  cases op <;> decide

/-- A row found for a byte has that byte as its opcode. -/
theorem code_of_ofCode {b : BitVec 8} {op : Opcode} (h : Opcode.ofCode b = some op) : op.code = b := by
  have := List.find?_some h
  simpa using this

/-! ### Byte lanes (R53) -/

theorem lanesOfWord_length (v : Word) : (lanesOfWord v).length = 8 := rfl

/-- The lanes of a word carry the word. -/
@[simp] theorem wordOfLanes_lanesOfWord (v : Word) : wordOfLanes (lanesOfWord v) = v := by
  apply BitVec.eq_of_toNat_eq
  have hv := v.isLt
  simp only [wordOfLanes, lanesOfWord, lanesToNat, BitVec.toNat_ofNat, BitVec.extractLsb'_toNat, Nat.shiftRight_eq_div_pow]
  omega

end Sys2Proof
end

