-- ==== Sys2Proof/Laws/Exec.lean ====
section
/-! SUPPORT. Everything a command can do, said once: `exec` always answers a next state, and that state is one of seven
updates of the old one. -/

namespace Sys2Proof.Machine

/-- What a command leaves, by kind of command. -/
inductive CommandEffect (i : Instr) (s : State) : State → Prop where
  /-- NOP. -/
  | nothing : i = .nop → CommandEffect i s s
  /-- A command that writes one data register. -/
  | writes (rd : Reg) (v : Word) : i.opcode ≠ .nop → i.opcode ≠ .ldivmod → i.opcode ≠ .lmuladd → i.opcode ≠ .lpack →
      CommandEffect i s (s.writeX rd v)
  /-- LDIVMOD. -/
  | divides (l : Vector Word 8) (rd : Reg) (v : Word) : i.opcode = .ldivmod →
      CommandEffect i s ((s.withLimbs l).writeX rd v)
  /-- LMULADD. -/
  | multiplies (l : Vector Word 8) (rd : Reg) (c : Word) : i.opcode = .lmuladd →
      CommandEffect i s (((s.withLimbs l).writeX rd c).noteCarry c)
  /-- LPACK. -/
  | packs (l : Vector Word 8) : i.opcode = .lpack → CommandEffect i s (s.withLimbs l)
  /-- A command that raises one of its own causes: MAGIC or LDIVMOD. -/
  | raises (c : Cause) : c ∈ ownCauses i → i.opcode = .magic ∨ i.opcode = .ldivmod →
      CommandEffect i s (raiseBlockError c (cmdValue i) s)

/-! ### The two commands with checks of their own -/

theorem low32_eq_iff (v : Word) (n : Nat) (hn : n < 2 ^ 32) : low32 v = BitVec.ofNat 64 n ↔ v.toNat % 2 ^ 32 = n := by
  rw [← toNat_low32, BitVec.toNat_eq, BitVec.toNat_ofNat, Nat.mod_eq_of_lt (by omega)]

/-- MAGIC with divisor 0. -/
theorem execMagic_zero (rd ra : Reg) (s : State) (h : (s.readX ra).toNat % 2 ^ 32 = 0) :
    execMagic rd ra s = .next (raiseBlockError .divisorZero (cmdValue (.magic rd ra)) s) :=
  if_pos ((low32_eq_iff _ 0 (by norm_num)).mpr h)

/-- MAGIC with divisor 1. -/
theorem execMagic_one (rd ra : Reg) (s : State) (h : (s.readX ra).toNat % 2 ^ 32 = 1) :
    execMagic rd ra s = .next (raiseBlockError .magicRange (cmdValue (.magic rd ra)) s) :=
  (if_neg fun h0 => by rw [(low32_eq_iff _ 0 (by norm_num)).mp h0] at h; omega).trans
    (if_pos ((low32_eq_iff _ 1 (by norm_num)).mpr h))

/-- MAGIC with any other divisor. -/
theorem execMagic_of_two_le (rd ra : Reg) (s : State) (h : 2 ≤ (s.readX ra).toNat % 2 ^ 32) :
    execMagic rd ra s = .next (s.writeX rd (magicConstant (low32 (s.readX ra)))) :=
  (if_neg fun h0 => by rw [(low32_eq_iff _ 0 (by norm_num)).mp h0] at h; omega).trans
    (if_neg fun h1 => by rw [(low32_eq_iff _ 1 (by norm_num)).mp h1] at h; omega)

/-- LDIVMOD from a limb the limb count does not reach. -/
theorem execLdivmod_index (rd rb rc : Reg) (imm8 : BitVec 8) (s : State) (h : s.ctrl.limbCount ≤ firstLimb imm8) :
    execLdivmod rd rb rc imm8 s = .next (raiseBlockError .limbIndex (cmdValue (.ldivmod rd rb rc imm8)) s) :=
  if_pos h

/-- LDIVMOD from an active limb. -/
theorem execLdivmod_pass (rd rb rc : Reg) (imm8 : BitVec 8) (s : State) (h : firstLimb imm8 < s.ctrl.limbCount) :
    execLdivmod rd rb rc imm8 s = .next
      ((s.withLimbs (divLoop s.ctrl.limbWidth (low32 (s.readX rb)) (s.readX rc) (firstLimb imm8 + 1) s.limbs 0#64).1).writeX rd
        (divLoop s.ctrl.limbWidth (low32 (s.readX rb)) (s.readX rc) (firstLimb imm8 + 1) s.limbs 0#64).2) :=
  if_neg (Nat.not_le.mpr h)

theorem execMagic_effect (rd ra : Reg) (s : State) :
    ∃ t, execMagic rd ra s = .next t ∧ CommandEffect (.magic rd ra) s t := by
  simp only [execMagic]
  split
  · exact ⟨_, rfl, .raises _ (by simp [ownCauses]) (.inl rfl)⟩
  · split
    · exact ⟨_, rfl, .raises _ (by simp [ownCauses]) (.inl rfl)⟩
    · exact ⟨_, rfl, .writes _ _ (by simp [Instr.opcode]) (by simp [Instr.opcode]) (by simp [Instr.opcode])
        (by simp [Instr.opcode])⟩

theorem execLdivmod_effect (rd rb rc : Reg) (imm8 : BitVec 8) (s : State) :
    ∃ t, execLdivmod rd rb rc imm8 s = .next t ∧ CommandEffect (.ldivmod rd rb rc imm8) s t := by
  simp only [execLdivmod]
  split
  · exact ⟨_, rfl, .raises _ (by simp [ownCauses]) (.inr rfl)⟩
  · exact ⟨_, rfl, .divides _ _ _ rfl⟩

/-- Every command answers a next state, and what it leaves is one of `CommandEffect`'s cases. -/
theorem exec_effect (i : Instr) (s : State) : ∃ t, exec i s = .next t ∧ CommandEffect i s t := by
  cases i with
  | nop => exact ⟨_, rfl, .nothing rfl⟩
  | magic rd ra => exact execMagic_effect rd ra s
  | ldivmod rd rb rc imm8 => exact execLdivmod_effect rd rb rc imm8 s
  | lmuladd rd ra rb => exact ⟨_, rfl, .multiplies _ _ _ rfl⟩
  | lpack ra rb => exact ⟨_, rfl, .packs _ rfl⟩
  | _ => exact ⟨_, rfl, .writes _ _ (by simp [Instr.opcode]) (by simp [Instr.opcode]) (by simp [Instr.opcode])
      (by simp [Instr.opcode])⟩

/-- Inversion: a command that answers `t` left one of `CommandEffect`'s cases. -/
theorem effect_of_exec {i : Instr} {s t : State} (h : exec i s = .next t) : CommandEffect i s t := by
  obtain ⟨u, hu, he⟩ := exec_effect i s
  rw [hu] at h
  cases h
  exact he

end Sys2Proof.Machine
end

