-- ==== Sys2Proof/Laws/PerInstr.lean ====
section
/-! SUPPORT. Facts about every command as syntax, one lemma per constructor. -/

namespace Sys2Proof.Laws

/-- The command word of a well-formed command fits its own row of R75: its opcode in bits 7:0, and every bit the row
fixes as the row fixes it. -/
def EncodedRow.Statement (i : Instr) : Prop :=
  i.wellFormed = true → encode i &&& i.opcode.mask = i.opcode.matchWord

theorem EncodedRow.nop : EncodedRow.Statement .nop := fun _ =>
  (fits_iff .nop 0 0 0 0 0).mpr (by simp [Opcode.fixedFields])

theorem EncodedRow.magic (rd ra : Reg) : EncodedRow.Statement (.magic rd ra) := fun _ =>
  (fits_iff .magic 0 0 0 ra rd).mpr (by simp [Opcode.fixedFields])

theorem EncodedRow.fdivn (rd ra rb : Reg) : EncodedRow.Statement (.fdivn rd ra rb) := fun _ =>
  (fits_iff .fdivn 0 0 rb ra rd).mpr (by simp [Opcode.fixedFields])

theorem EncodedRow.fmodn (rd ra rb rc : Reg) : EncodedRow.Statement (.fmodn rd ra rb rc) := fun _ =>
  (fits_iff .fmodn 0 rc rb ra rd).mpr (by simp [Opcode.fixedFields])

theorem EncodedRow.fdivw (rd ra rb : Reg) : EncodedRow.Statement (.fdivw rd ra rb) := fun _ =>
  (fits_iff .fdivw 0 0 rb ra rd).mpr (by simp [Opcode.fixedFields])

theorem EncodedRow.fmodw (rd ra rb rc : Reg) : EncodedRow.Statement (.fmodw rd ra rb rc) := fun _ =>
  (fits_iff .fmodw 0 rc rb ra rd).mpr (by simp [Opcode.fixedFields])

theorem EncodedRow.ldivmod (rd rb rc : Reg) (imm8 : BitVec 8) :
    EncodedRow.Statement (.ldivmod rd rb rc imm8) := fun h =>
  (fits_iff .ldivmod imm8 rc rb 0 rd).mpr ⟨(immediateLegal_iff imm8).mp h, by simp [Opcode.fixedFields]⟩

theorem EncodedRow.lmuladd (rd ra rb : Reg) : EncodedRow.Statement (.lmuladd rd ra rb) := fun _ =>
  (fits_iff .lmuladd 0 0 rb ra rd).mpr (by simp [Opcode.fixedFields])

theorem EncodedRow.madd (rd ra rb rc : Reg) : EncodedRow.Statement (.madd rd ra rb rc) := fun _ =>
  (fits_iff .madd 0 rc rb ra rd).mpr (by simp [Opcode.fixedFields])

theorem EncodedRow.lpack (ra rb : Reg) : EncodedRow.Statement (.lpack ra rb) := fun _ =>
  (fits_iff .lpack 0 0 rb ra 0).mpr (by simp [Opcode.fixedFields])

theorem EncodedRow.lhi (rd : Reg) : EncodedRow.Statement (.lhi rd) := fun _ =>
  (fits_iff .lhi 0 0 0 0 rd).mpr (by simp [Opcode.fixedFields])

theorem EncodedRow.llo (rd : Reg) : EncodedRow.Statement (.llo rd) := fun _ =>
  (fits_iff .llo 0 0 0 0 rd).mpr (by simp [Opcode.fixedFields])

theorem EncodedRow.cmpmsb (rd ra : Reg) : EncodedRow.Statement (.cmpmsb rd ra) := fun _ =>
  (fits_iff .cmpmsb 0 0 0 ra rd).mpr (by simp [Opcode.fixedFields])

theorem EncodedRow.expmsb (rd ra rb : Reg) : EncodedRow.Statement (.expmsb rd ra rb) := fun _ =>
  (fits_iff .expmsb 0 0 rb ra rd).mpr (by simp [Opcode.fixedFields])

theorem EncodedRow.cmplsb (rd ra : Reg) : EncodedRow.Statement (.cmplsb rd ra) := fun _ =>
  (fits_iff .cmplsb 0 0 0 ra rd).mpr (by simp [Opcode.fixedFields])

theorem EncodedRow.explsb (rd ra rb : Reg) : EncodedRow.Statement (.explsb rd ra rb) := fun _ =>
  (fits_iff .explsb 0 0 rb ra rd).mpr (by simp [Opcode.fixedFields])

theorem EncodedRow.cmplex (rd ra : Reg) : EncodedRow.Statement (.cmplex rd ra) := fun _ =>
  (fits_iff .cmplex 0 0 0 ra rd).mpr (by simp [Opcode.fixedFields])

theorem EncodedRow.explex (rd ra rb : Reg) : EncodedRow.Statement (.explex rd ra rb) := fun _ =>
  (fits_iff .explex 0 0 rb ra rd).mpr (by simp [Opcode.fixedFields])

theorem EncodedRow.getver (rd ra : Reg) : EncodedRow.Statement (.getver rd ra) := fun _ =>
  (fits_iff .getver 0 0 0 ra rd).mpr (by simp [Opcode.fixedFields])

theorem EncodedRow.getvar (rd ra : Reg) : EncodedRow.Statement (.getvar rd ra) := fun _ =>
  (fits_iff .getvar 0 0 0 ra rd).mpr (by simp [Opcode.fixedFields])

theorem EncodedRow.getvarlex (rd ra : Reg) : EncodedRow.Statement (.getvarlex rd ra) := fun _ =>
  (fits_iff .getvarlex 0 0 0 ra rd).mpr (by simp [Opcode.fixedFields])

theorem EncodedRow.getvarn (rd ra : Reg) : EncodedRow.Statement (.getvarn rd ra) := fun _ =>
  (fits_iff .getvarn 0 0 0 ra rd).mpr (by simp [Opcode.fixedFields])

theorem EncodedRow.pext (rd ra rb : Reg) : EncodedRow.Statement (.pext rd ra rb) := fun _ =>
  (fits_iff .pext 0 0 rb ra rd).mpr (by simp [Opcode.fixedFields])

theorem EncodedRow.pdep (rd ra rb : Reg) : EncodedRow.Statement (.pdep rd ra rb) := fun _ =>
  (fits_iff .pdep 0 0 rb ra rd).mpr (by simp [Opcode.fixedFields])

end Sys2Proof.Laws
end

