-- ==== Sys2Proof/Laws/Port.lean ====
section
/-! SUPPORT. What a step does for each kind of event at the port. -/

namespace Sys2Proof.Machine

/-- Each register is found at its own offset (R54). -/
@[simp] theorem slotAt_offset (slot : Slot) : slotAt slot.offset = some slot := by
  cases slot with
  | x r => revert r; decide
  | limb j => revert j; decide
  | _ => decide

/-- A step on a port event is that event, performed with the event taken from the port. -/
theorem step_event {s : State} {e : PortEvent} {rest : List PortEvent} (h : s.pending = e :: rest) :
    step s = performEvent e { s with pending := rest } := by
  rw [step, h]

/-- An idle port: nothing happens. -/
theorem step_idle {s : State} (h : s.pending = []) : step s = .next s := by
  rw [step, h]

/-- What a register reads does not depend on the port. -/
theorem readSlot_congr (slot : Slot) {s t : State} (h : BlockKept s t) : readSlot slot t = readSlot slot s := by
  obtain ⟨hx, hl, hc, hs, hf⟩ := h
  cases slot with
  | x r => exact hx r
  | limb j => exact hl j
  | ctrl => exact congrArg Ctrl.word hc
  | status => exact congrArg Status.word hs
  | faultcmd => exact hf
  | id => rfl
  | cmd => rfl

/-- A host read of a register replies with it and does nothing else. -/
theorem step_memRead {s : State} {h : Nat} {slot : Slot} {rest : List PortEvent}
    (hp : s.pending = memRead h slot.offset :: rest) :
    step s = .next (({ s with pending := rest } : State).answer h (.data (lanesOfWord (readSlot slot s)))) := by
  have hr : readSlot slot { s with pending := rest } = readSlot slot s :=
    readSlot_congr slot ⟨fun _ => rfl, fun _ => rfl, rfl, rfl, rfl⟩
  rw [← hr]
  rw [step_event hp]
  simp [memRead, performEvent, performAccess, admittedSlot, AccessKind.width]

/-- A host write of a register performs the register's write, then replies. -/
theorem step_memWrite {s : State} {h : Nat} {slot : Slot} {v : Word} {rest : List PortEvent}
    (hp : s.pending = memWrite h slot.offset v :: rest) :
    step s = thenAnswer h .done (writeSlot slot v { s with pending := rest }) := by
  rw [step_event hp]
  simp [memWrite, performEvent, performAccess, admittedSlot, AccessKind.width, lanesOfWord_length]

/-- A CMD write submits the command, then replies. -/
theorem step_cmdWrite {s : State} {h : Nat} {w : Word} {rest : List PortEvent} (hp : s.pending = cmdWrite h w :: rest) :
    step s = thenAnswer h .done (submitCommand w { s with pending := rest }) :=
  step_memWrite (slot := .cmd) hp

/-- An access the port does not admit gets a bus error and does nothing else. -/
theorem step_notAdmitted {s : State} {a : Access} {rest : List PortEvent} (hp : s.pending = .access a :: rest)
    (ha : admittedSlot a = none) :
    step s = .next (({ s with pending := rest } : State).answer a.issuer .busError) := by
  rw [step_event hp]
  simp [performEvent, performAccess, ha]

/-- The four ends of submitting a CMD value: discarded, a decode error, or the command. -/
theorem submitCommand_cases (w : Word) (s : State) :
    (s.status.err = true ∧ submitCommand w s = .next (discardCommand s)) ∨
      (s.status.err = false ∧ ∃ c, decode w = .error c ∧ submitCommand w s = .next (raiseBlockError c w s)) ∨
      (s.status.err = false ∧ ∃ i, decode w = .command i ∧ submitCommand w s = exec i s) := by
  unfold submitCommand
  cases he : s.status.err
  · cases hd : decode w with
    | error c => exact .inr (.inl ⟨rfl, c, rfl, by simp⟩)
    | command i => exact .inr (.inr ⟨rfl, i, rfl, by simp⟩)
  · exact .inl ⟨rfl, by simp⟩

/-- Submitting a CMD value always answers a next state, which keeps the port and CTRL. -/
theorem submitCommand_next (w : Word) (s : State) :
    ∃ t, submitCommand w s = .next t ∧ t.ctrl = s.ctrl ∧ PortKept s t := by
  rcases submitCommand_cases w s with ⟨-, h⟩ | ⟨-, c, -, h⟩ | ⟨-, i, -, h⟩
  · exact ⟨_, h, rfl, rfl, rfl⟩
  · exact ⟨_, h, rfl, rfl, rfl⟩
  · obtain ⟨t, ht, he⟩ := exec_effect i s
    refine ⟨t, by rw [h, ht], ?_⟩
    cases he <;> simp [PortKept]

/-- Writing any register always answers a next state, which keeps the port. -/
theorem writeSlot_next (slot : Slot) (v : Word) (s : State) : ∃ t, writeSlot slot v s = .next t ∧ PortKept s t := by
  cases slot with
  | cmd =>
    obtain ⟨t, ht, -, hk⟩ := submitCommand_next v s
    exact ⟨t, ht, hk⟩
  | id => exact ⟨_, rfl, rfl, rfl⟩
  | ctrl => exact ⟨_, rfl, rfl, rfl⟩
  | status => exact ⟨_, rfl, writeStatus_pending s v, writeStatus_replies s v⟩
  | faultcmd => exact ⟨_, rfl, rfl, rfl⟩
  | x r => exact ⟨_, rfl, writeX_pending s r v, writeX_replies s r v⟩
  | limb j => exact ⟨_, rfl, rfl, rfl⟩

/-- Every access answers a next state and gives its issuer exactly one reply. -/
theorem performAccess_next (a : Access) (s : State) :
    ∃ t r, performAccess a s = .next t ∧ PortServed s.pending a.issuer r s t := by
  unfold performAccess
  split
  · exact ⟨_, _, rfl, rfl, rfl⟩
  · next slot _ =>
    split
    · exact ⟨_, _, rfl, rfl, rfl⟩
    · next lanes _ =>
      obtain ⟨t, ht, hp, hr⟩ := writeSlot_next slot (wordOfLanes lanes) s
      rw [ht]
      exact ⟨_, _, rfl, hp, congrArg (· ++ _) hr⟩

end Sys2Proof.Machine
end

