-- ==== Sys2Proof/Tests/Slice0.lean ====
section
/-! SUPPORT. Tests: the checks of WellFormed, a word of every command from the spec's encodings, one step per command
with the spec's expected results (95_test_vectors.md and the rules' examples), and, for every statement with
hypotheses, a state that meets them. -/

namespace Sys2Proof.Tests

open Sys2Proof.Machine

/-! ### Small states -/

/-- The reset state with the given data registers written. -/
def withX (l : List (Reg × Word)) : State := l.foldl (fun s p => s.writeX p.1 p.2) State.reset

/-- A state with the given limbs written. -/
def limbs (l : List (LimbIndex × Word)) (s : State) : State := l.foldl (fun s p => s.writeLimb p.1 p.2) s

/-- A state with limbs 0 to 3 all ones: the value 2^120 − 1 under the reset CTRL. -/
def fullLimbs (s : State) : State := limbs [(0, 0x3FFFFFFF), (1, 0x3FFFFFFF), (2, 0x3FFFFFFF), (3, 0x3FFFFFFF)] s

/-- A state with the given events at the port. -/
def port (l : List PortEvent) (s : State) : State := { s with pending := l }

/-- What a field is in the next state a result answers. -/
def look {α : Type} (f : State → α) : Result → Option α
  | .next t => some (f t)
  | .fault _ => none
  | .refused _ => none

/-- A field after one step that submits the command word `w`. -/
def ran {α : Type} (w : Nat) (s : State) (f : State → α) : Option α := look f (step (s.withFetchWord 32 w))

/-- Limbs 0 to 3. -/
def low4 (s : State) : List Word := [s.readLimb 0, s.readLimb 1, s.readLimb 2, s.readLimb 3]

/-- The reply to one host access of the reset state. -/
def replyOf (e : PortEvent) (s : State) : Option (List Reply) := look State.replies (step (port [e] s))

/-! ### WellFormed refuses ill-formed terms -/

theorem test_immediate_eight_is_ill_formed : Instr.wellFormed (.ldivmod 0 0 0 8) = false := by decide
theorem test_immediate_bit_seven_is_ill_formed : Instr.wellFormed (.ldivmod 5 3 4 0x83) = false := by decide
theorem test_immediate_seven_is_well_formed : Instr.wellFormed (.ldivmod 0 0 0 7) = true := by decide
theorem test_split3_equal_high_middle : Pseudo.wellFormed (.split3 12 12 10 9 2 1 4 3) = false := by decide
theorem test_split3_equal_high_low : Pseudo.wellFormed (.split3 12 11 12 9 2 1 4 3) = false := by decide
theorem test_split3_equal_middle_low : Pseudo.wellFormed (.split3 12 10 10 9 2 1 4 3) = false := by decide
theorem test_split3_destination_is_digit_source : Pseudo.wellFormed (.split3 9 11 10 9 2 1 4 3) = false := by decide
theorem test_split3_destination_is_magic_source : Pseudo.wellFormed (.split3 12 2 10 9 2 1 4 3) = false := by decide
theorem test_split3_destination_is_divisor_source : Pseudo.wellFormed (.split3 12 11 1 9 2 1 4 3) = false := by decide
theorem test_split3_is_well_formed : Pseudo.wellFormed (.split3 12 11 10 9 2 1 4 3) = true := by decide

/-! ### A word of every command, from R75 and the rules' examples -/

theorem test_decode_nop : decode 0x00000000 = .command .nop := by decide
theorem test_decode_magic : decode 0x00001210 = .command (.magic 2 1) := by decide
theorem test_decode_fdivn : decode 0x00021311 = .command (.fdivn 3 1 2) := by decide
theorem test_decode_fmodn : decode 0x00421312 = .command (.fmodn 3 1 2 4) := by decide
theorem test_decode_fdivw : decode 0x00021313 = .command (.fdivw 3 1 2) := by decide
theorem test_decode_fmodw : decode 0x00421314 = .command (.fmodw 3 1 2 4) := by decide
theorem test_decode_ldivmod : decode 0x03430520 = .command (.ldivmod 5 3 4 3) := by decide
theorem test_decode_lmuladd : decode 0x00063721 = .command (.lmuladd 7 3 6) := by decide
theorem test_decode_madd : decode 0x00321422 = .command (.madd 4 1 2 3) := by decide
theorem test_decode_lpack : decode 0x00021023 = .command (.lpack 1 2) := by decide
theorem test_decode_lhi : decode 0x00000824 = .command (.lhi 8) := by decide
theorem test_decode_llo : decode 0x00000925 = .command (.llo 9) := by decide
theorem test_decode_cmpmsb : decode 0x00001330 = .command (.cmpmsb 3 1) := by decide
theorem test_decode_expmsb : decode 0x00063A31 = .command (.expmsb 10 3 6) := by decide
theorem test_decode_cmplsb : decode 0x00002432 = .command (.cmplsb 4 2) := by decide
theorem test_decode_explsb : decode 0x00094B33 = .command (.explsb 11 4 9) := by decide
theorem test_decode_cmplex : decode 0x00002534 = .command (.cmplex 5 2) := by decide
theorem test_decode_explex : decode 0x00085C35 = .command (.explex 12 5 8) := by decide
theorem test_decode_getver : decode 0x00001636 = .command (.getver 6 1) := by decide
theorem test_decode_getvar : decode 0x00002737 = .command (.getvar 7 2) := by decide
theorem test_decode_getvarlex : decode 0x00002838 = .command (.getvarlex 8 2) := by decide
theorem test_decode_getvarn : decode 0x00002939 = .command (.getvarn 9 2) := by decide
theorem test_decode_pext : decode 0x000D1E3A = .command (.pext 14 1 13) := by decide
theorem test_decode_pdep : decode 0x000DEF3B = .command (.pdep 15 14 13) := by decide

/-- One word written out bit by bit: IMM8 3, RC 4, RB 3, RA 0, RD 5, OP 0x20. -/
theorem test_decode_ldivmod_bits :
    decode 0b00000011_0100_0011_0000_0101_00100000 = .command (.ldivmod 5 3 4 3) := by decide

/-- V-E1's illegal opcodes, and the first and last value of each unassigned range of R76. -/
theorem test_decode_illegal_opcodes :
    ([0x01, 0x0F, 0x15, 0x1F, 0x26, 0x2F, 0x3C, 0xFF, 0xFFFFFFFF, 0x1000000FF].all fun w =>
      decide (decode w = .error .illegalOpcode)) = true := by decide

/-- V-E1's reserved fields. -/
theorem test_decode_reserved_fields :
    ([0x100000010, 0x100, 0x08000020, 0xF020, 0x0F001210, 0x00F00011, 0xF024].all fun w =>
      decide (decode w = .error .reservedField)) = true := by decide

theorem test_decodeTableWord_longest : decodeTableWord 32 0x03430520 = some (.ldivmod 5 3 4 3) := by decide
theorem test_decodeTableWord_refuses : decodeTableWord 32 0xFF = none := by decide

/-! ### One step per command (95_test_vectors.md) -/

theorem test_nop_changes_no_register :
    ran 0 (withX [(1, 58)]) (fun t => (t.xs, t.limbs, t.ctrl, t.status, t.faultcmd)) =
      some ((withX [(1, 58)]).xs, State.reset.limbs, State.reset.ctrl, State.reset.status, 0) := by decide

theorem test_magic_of_supradigit : ran 0x1210 (withX [(1, 195112)]) (·.readX 2) = some 0x000055FCD47DEA9C := by decide
theorem test_magic_ignores_high_half :
    ran 0x1210 (withX [(1, 0x10000003A)]) (·.readX 2) = some 0x0469EE58469EE585 := by decide
theorem test_magic_zero_is_an_error :
    ran 0x1210 (withX [(2, 9)]) (fun t => (t.readX 2, readSlot .status t, t.faultcmd)) = some (9, 0x301, 0x1210) := by
  decide

theorem test_fdivn_ignores_high_half :
    ran 0x21311 (withX [(1, 0xFFFFFFFF000003E8), (2, 0x0469EE58469EE585)]) (·.readX 3) = some 17 := by decide
theorem test_fdivn_largest_dividend :
    ran 0x21311 (withX [(1, 0xFFFFFFFF), (2, 0x0469EE58469EE585)]) (·.readX 3) = some 74051160 := by decide
theorem test_fmodn :
    ran 0x421312 (withX [(1, 1000), (2, 0x0469EE58469EE585), (4, 58)]) (·.readX 3) = some 14 := by decide
theorem test_fmodn_divisor_zero :
    ran 0x421312 (withX [(1, 1000), (2, 0x0469EE58469EE585)]) (fun t => (t.readX 3, t.status.err)) = some (0, false) := by
  decide
theorem test_fdivw_first_inexact :
    ran 0x21313 (withX [(1, 542551296285575097), (2, 0x0469EE58469EE585)]) (·.readX 3) = some 9354332694578881 := by
  decide
theorem test_fdivw_power_of_two :
    ran 0x21313 (withX [(1, 0xFFFFFFFFFFFFFFFF), (2, 0x0400000000000000)]) (·.readX 3) = some 288230376151711743 := by
  decide
theorem test_fmodw_first_inexact :
    ran 0x421314 (withX [(1, 281063262946575), (2, 0x000055FCD47DEA9C), (4, 195112)]) (·.readX 3) = some 50408 := by
  decide
theorem test_fmodw_widest :
    ran 0x421314 (withX [(1, 4611686018427387903), (2, 0x000055FCD47DEA9C), (4, 195112)]) (·.readX 3) = some 195110 := by
  decide

theorem test_ldivmod_max_payload :
    ran 0x03430520 (fullLimbs (withX [(3, 195112), (4, 0x000055FCD47DEA9C)])) (fun t => (t.readX 5, low4 t)) =
      some (144327, [0x32662C5B, 0x2EA78BB2, 0x0D47DEA9, 0x157F]) := by decide
theorem test_ldivmod_skips_significant_limbs :
    ran 0x01430520 (fullLimbs (withX [(3, 195112), (4, 0x000055FCD47DEA9C)])) (fun t => (t.readX 5, low4 t)) =
      some (142231, [0x0D47DEA9, 0x157F, 0x3FFFFFFF, 0x3FFFFFFF]) := by decide

/-- V-M3's overflow row: LW = 8, N = 2. -/
theorem test_lmuladd_sets_ovf :
    ran 0x32121 (limbs [(0, 0xFF), (1, 0xFF)] ((withX [(2, 1), (3, 1)]).writeCtrl 0x108))
      (fun t => (t.readX 1, low4 t, t.status.ovf)) = some (1, [0, 0, 0, 0], true) := by decide
theorem test_lmuladd_radix_one_carries :
    ran 0x00063721 (limbs [(0, 1), (1, 2), (2, 3), (3, 4)] (withX [(3, 1), (6, 0x3FFFFFFF)]))
      (fun t => (t.readX 7, low4 t, t.status.ovf)) = some (0, [0, 3, 3, 4], false) := by decide

theorem test_madd_wraps :
    ran 0x321422 (withX [(1, 0x8000000000000000), (2, 2), (3, 5)]) (·.readX 4) = some 5 := by decide
/-- R204's word: RD = RA = RC, RB = 4. -/
theorem test_madd_destination_is_source : ran 0x343322 (withX [(3, 7), (4, 5)]) (·.readX 3) = some 42 := by decide

theorem test_lpack_orders_halves :
    ran 0x21023 (withX [(1, 0xF123456789ABCDEF), (2, 0xFEDCBA9876543210)]) low4 =
      some [0x36543210, 0x3B72EA61, 0x09ABCDEF, 0x048D159E] := by decide
theorem test_lpack_clears_the_upper_limbs :
    ran 0x23 (limbs [(3, 1), (4, 2), (7, 3)] State.reset) (·.limbs) = some (Vector.replicate 8 0) := by decide
theorem test_lhi_ignores_limb_bits :
    ran 0x524 (limbs [(3, 0xFFFFFFFFFFFFFFFF)] State.reset) (·.readX 5) = some 0x0FFFFFFFC0000000 := by decide
theorem test_llo :
    ran 0x925 (limbs [(0, 0x36543210), (1, 0x3B72EA61), (2, 5), (3, 5)] State.reset) (·.readX 9) =
      some 0x0EDCBA9876543210 := by decide

theorem test_cmpmsb : ran 0x1330 (withX [(1, 0x123E4567E89B12D3)]) (·.readX 3) = some 0x0123E4567E89B2D3 := by decide
theorem test_expmsb :
    ran 0x63A31 (withX [(3, 0x0123E4567E89B2D3), (6, 1)]) (·.readX 10) = some 0x123E4567E89B12D3 := by decide
theorem test_expmsb_masks_the_version :
    ran 0x63A31 (withX [(3, 0xFFFFFFFFFFFFFFFF), (6, 0x13)]) (·.readX 10) = some 0xFFFFFFFFFFFF3FFF := by decide
theorem test_cmplsb : ran 0x2432 (withX [(2, 0xA456426614174003)]) (·.readX 4) = some 0x0456426614174003 := by decide
theorem test_explsb :
    ran 0x94B33 (withX [(4, 0x0456426614174003), (9, 0xA)]) (·.readX 11) = some 0xA456426614174003 := by decide
theorem test_explsb_masks_the_nibble :
    ran 0x94B33 (withX [(4, 0xFFFFFFFFFFFFFFFF), (9, 0x13)]) (·.readX 11) = some 0x3FFFFFFFFFFFFFFF := by decide
theorem test_cmplex : ran 0x2534 (withX [(2, 0xA456426614174003)]) (·.readX 5) = some 0x091590998505D000 := by decide
theorem test_explex :
    ran 0x85C35 (withX [(5, 0x091590998505D000), (8, 0xB)]) (·.readX 12) = some 0xA456426614174003 := by decide
theorem test_explex_masks_the_field :
    ran 0x85C35 (withX [(5, 0xFFFFFFFFFFFFFFFF), (8, 0x13)]) (·.readX 12) = some 0x3FFFFFFFFFFFFFFF := by decide
theorem test_getver : ran 0x1636 (withX [(1, 0x123E4567E89B12D3)]) (·.readX 6) = some 1 := by decide
theorem test_getvar : ran 0x2737 (withX [(2, 0xA456426614174003)]) (·.readX 7) = some 2 := by decide
theorem test_getvarlex : ran 0x2838 (withX [(2, 0xA456426614174003)]) (·.readX 8) = some 0xB := by decide
theorem test_getvarn : ran 0x2939 (withX [(2, 0xA456426614174003)]) (·.readX 9) = some 0xA := by decide
theorem test_pext : ran 0xD1E3A (withX [(1, 0x123E4567E89B12D3), (13, 0xF0F0)]) (·.readX 14) = some 0x1D := by decide
theorem test_pext_outermost_bits :
    ran 0xD1E3A (withX [(1, 0xFFFFFFFFFFFFFFFF), (13, 0x8000000000000001)]) (·.readX 14) = some 3 := by decide
theorem test_pdep : ran 0xDEF3B (withX [(14, 0x1D), (13, 0xF0F0)]) (·.readX 15) = some 0x10D0 := by decide
theorem test_pdep_outermost_bits :
    ran 0xDEF3B (withX [(14, 0xFFFFFFFFFFFFFFFF), (13, 0x8000000000000001)]) (·.readX 15) =
      some 0x8000000000000001 := by decide

/-! ### Errors and the host interface (V-E1, V-H1, P5) -/

theorem test_limb_index_error :
    ran 0x03210320 ((withX [(1, 58)]).writeCtrl 0x100) (fun t => (t.readX 3, readSlot .status t, t.faultcmd)) =
      some (0, 0x501, 0x03210320) := by decide
theorem test_first_seven_is_legal :
    ran 0x07000020 (State.reset.writeCtrl 0x71E) (readSlot .status) = some 0 := by decide
/-- The high word is kept in FAULTCMD. -/
theorem test_high_word_error :
    look (fun t => (readSlot .status t, t.faultcmd)) (step (port [cmdWrite 0 0x100000012] State.reset)) =
      some (0x201, 0x100000012) := by decide
theorem test_command_discarded :
    ran 0x1210 (raiseBlockError .magicRange 0x1210 (withX [(1, 58)])) (fun t => (t.readX 2, readSlot .status t)) =
      some (0, 0x405) := by decide
theorem test_status_write_keeps_drop :
    look (readSlot .status) (step (port [memWrite 0 0x010 1] (discardCommand (raiseBlockError .magicRange 0x1210 State.reset)))) =
      some 4 := by decide
theorem test_ctrl_illegal_width_kept :
    look (readSlot .ctrl) (step (port [memWrite 0 0x008 0x71F] State.reset)) = some 0x71E := by decide
theorem test_ctrl_width_zero_kept :
    look (readSlot .ctrl) (step (port [memWrite 0 0x008 0x100] State.reset)) = some 0x11E := by decide
theorem test_id_read :
    replyOf (memRead 3 0x000) State.reset = some [⟨3, .data [7, 0, 0, 0, 0x41, 0x43, 0x4E, 0x55]⟩] := by decide
theorem test_bus_errors :
    ([memRead 0 0x028, memWrite 0 0x140 5, memRead 0 0x1F8, memRead 0 0x084, .access ⟨0, 0x080, .read 4⟩].all fun e =>
      decide (replyOf e State.reset = some [⟨0, .busError⟩])) = true := by decide
theorem test_x0_discards :
    look (·.xs) (step (port [memWrite 0 0x080 7] State.reset)) = some State.reset.xs := by decide

/-! ### Witnesses: states and operands that meet a statement's hypotheses -/

theorem witness_ResetEventClearsBlock :
    (port [.reset (some ⟨0, 0x018, .write (lanesOfWord 0x1210)⟩)] (withX [(1, 58)])).pending =
      .reset (some ⟨0, 0x018, .write (lanesOfWord 0x1210)⟩) :: [] := rfl

/-- After P5's first error. -/
def errorState : State := raiseBlockError .magicRange 0x1210 (withX [(1, 1)])

theorem errorState_invariant : BlockInv errorState :=
  ⟨⟨by decide, by decide⟩, ⟨Cause.magicRange, rfl, show Cause.magicRange ∈ ownCauses (.magic 2 1) by decide⟩⟩

theorem reset_invariant : BlockInv State.reset := ⟨⟨by decide, by decide⟩, rfl, rfl⟩

/-- Both halves of the invariant: a command that enters an error, and a STATUS write that leaves one. -/
theorem witness_StepKeepsInvariant :
    BlockInv (port [cmdWrite 0 0x1210] State.reset) ∧ look (·.status.err) (step (port [cmdWrite 0 0x1210] State.reset)) =
        some true ∧
      BlockInv (port [memWrite 0 0x010 1] errorState) ∧
      look (·.status.err) (step (port [memWrite 0 0x010 1] errorState)) = some false :=
  ⟨reset_invariant, by decide, errorState_invariant, by decide⟩

theorem witness_StepNeverStops : State.reset.pending = [] := rfl

theorem witness_DecodeOfEncode :
    Instr.wellFormed (.ldivmod 15 15 15 7) = true ∧ Instr.wellFormed (.ldivmod 0 0 0 0) = true ∧
      Instr.wellFormed (.fmodw 15 0 15 0) = true := by decide

theorem witness_EncodeOfDecode : decode 0x07FF0F20 = .command (.ldivmod 15 15 15 7) ∧ decode 0 = .command .nop := by decide

/-- Both causes, and the ends of each unassigned range. -/
theorem witness_DecodeErrorsExactly :
    decode 0x01 = .error .illegalOpcode ∧ decode 0x100 = .error .reservedField ∧
      ∀ w ∈ ([0x01, 0x0F, 0x15, 0x1F, 0x26, 0x2F, 0x3C, 0xFF] : List Word), UnassignedOpcode w :=
  ⟨by decide, by decide, by simp [UnassignedOpcode]⟩

theorem witness_AssembleInvertsDisassemble :
    Instr.wellFormed (.ldivmod 5 3 4 7) = true ∧
      assemble ⟨.ldivmod, [.reg 5, .reg 3, .reg 4, .limb 7]⟩ = some (.ldivmod 5 3 4 7) ∧
      assemble ⟨.ldivmod, [.reg 5, .reg 3, .reg 4, .limb 8]⟩ = none := by decide

theorem witness_StepRunsDecodedCommand :
    (port [cmdWrite 7 0x1210] (withX [(1, 58)])).pending = cmdWrite 7 0x1210 :: [] ∧
      (port [cmdWrite 7 0x1210] (withX [(1, 58)])).status.err = false ∧ decode 0x1210 = .command (.magic 2 1) := by
  decide

/-- A CMD write that sets ERR. -/
theorem witness_ErrorEntryIsPrecise :
    (port [cmdWrite 0 0x1210] State.reset).status.err = false ∧
      look (·.status.err) (step (port [cmdWrite 0 0x1210] State.reset)) = some true := by decide

/-- One value for each cause, and the operands on either side of each check. -/
theorem witness_CauseRecorded :
    BlockInv (port [cmdWrite 0 0x1210] State.reset) ∧ State.reset.status.err = false ∧ UnassignedOpcode 0xFF ∧
      decode 0x100000012 = .error .reservedField ∧ ¬ UnassignedOpcode 0x100000012 ∧
      cmdValue (.magic 2 1) = 0x1210 ∧ ((withX []).readX 1).toNat % 2 ^ 32 = 0 ∧
      ((withX [(1, 1)]).readX 1).toNat % 2 ^ 32 = 1 ∧ ((withX [(1, 2)]).readX 1).toNat % 2 ^ 32 = 2 ∧
      cmdValue (.ldivmod 0 0 0 3) = 0x03000020 ∧ State.reset.ctrl.nl.toNat + 1 ≤ (4 : BitVec 8).toNat ∧
      ¬ State.reset.ctrl.nl.toNat + 1 ≤ (3 : BitVec 8).toNat := by
  refine ⟨reset_invariant, ?_⟩
  unfold UnassignedOpcode
  decide

theorem witness_CommandDiscardedWhileError :
    (port [cmdWrite 0 0xFFFFFFFFFFFFFFFF] errorState).pending = cmdWrite 0 0xFFFFFFFFFFFFFFFF :: [] ∧
      (port [cmdWrite 0 0xFFFFFFFFFFFFFFFF] errorState).status.err = true := by decide

/-- A next state, and a command outside each of the named sets; OVF set before. -/
theorem witness_CommandFrame :
    look (·.status.ovf) (exec (.madd 4 1 2 3) ((withX [(1, 57)]).noteCarry 1)) = some true ∧
      Instr.opcode (.madd 4 1 2 3) ≠ .lmuladd ∧ Instr.opcode (.madd 4 1 2 3) ≠ .ldivmod ∧
      Instr.opcode (.madd 4 1 2 3) ≠ .lpack ∧ Instr.opcode (.madd 4 1 2 3) ≠ .magic := by decide

/-- Each register's slot, the first and last of X and L among them. -/
theorem witness_HostReadReturnsRegister :
    ([Slot.id, .ctrl, .status, .cmd, .faultcmd, .x 0, .x 15, .limb 0, .limb 7].all fun slot =>
      decide ((port [memRead 1 slot.offset] errorState).pending = memRead 1 slot.offset :: [])) = true := by decide

theorem witness_HostWriteRegister :
    (port [memWrite 0 (Slot.x 0).offset 7] errorState).pending = memWrite 0 (Slot.x 0).offset 7 :: [] ∧
      (port [memWrite 0 (Slot.x 15).offset 7] errorState).pending = memWrite 0 (Slot.x 15).offset 7 :: [] ∧
      (port [memWrite 0 (Slot.limb 0).offset 7] errorState).pending = memWrite 0 (Slot.limb 0).offset 7 :: [] ∧
      (port [memWrite 0 (Slot.limb 7).offset 7] errorState).pending = memWrite 0 (Slot.limb 7).offset 7 :: [] := by decide

theorem witness_ReadOnlyWriteIgnored :
    (port [memWrite 0 0x000 5] State.reset).pending = memWrite 0 0x000 5 :: [] ∧
      (port [memWrite 0 0x020 5] errorState).pending = memWrite 0 0x020 5 :: [] := by decide

/-- The four boundary values of the width field. -/
theorem witness_CtrlWrite :
    (port [memWrite 0 0x008 0x108] State.reset).pending = memWrite 0 0x008 0x108 :: [] ∧
      (1 ≤ (0x101 : Word).toNat % 32 ∧ (0x101 : Word).toNat % 32 ≤ 30) ∧
      (1 ≤ (0x71E : Word).toNat % 32 ∧ (0x71E : Word).toNat % 32 ≤ 30) ∧ (0x100 : Word).toNat % 32 = 0 ∧
      31 ≤ (0x71F : Word).toNat % 32 := by decide

theorem witness_StatusWriteOneToClear :
    ([0, 1, 2, 4, 7].all fun v : Word => decide ((port [memWrite 0 0x010 v] errorState).pending = memWrite 0 0x010 v :: [])) =
      true := by decide

theorem witness_ErrorReturnResumesCommands :
    (port [memWrite 0 0x010 1, cmdWrite 1 (cmdValue (.magic 2 1))] errorState).pending =
        memWrite 0 0x010 1 :: cmdWrite 1 (cmdValue (.magic 2 1)) :: [] ∧
      (1 : Word).toNat % 2 = 1 ∧ (1 : Word).toNat / 4 % 2 = 0 ∧ Instr.wellFormed (.magic 2 1) = true := by decide

/-- An access refused for each reason, at the ends of the reserved ranges, and the admitted ones next to them. -/
theorem witness_BusErrorExactly :
    NotAdmitted ⟨0, 0x080, .read 4⟩ ∧
      (∀ off ∈ ([0x084, 0x028, 0x078, 0x140, 0x1F8] : List (BitVec 9)), NotAdmitted ⟨0, off, .read 8⟩) ∧
      (∀ off ∈ ([0x000, 0x020, 0x080, 0x0F8, 0x100, 0x138] : List (BitVec 9)), ¬ NotAdmitted ⟨0, off, .read 8⟩) ∧
      (port [.access ⟨0, 0x1F8, .read 8⟩] State.reset).pending = .access ⟨0, 0x1F8, .read 8⟩ :: [] := by
  unfold NotAdmitted
  decide

theorem witness_LittleEndianLanes :
    (lanesOfWord 0x554E434100000007).length = 8 ∧ (lanesOfWord 0x554E434100000007)[0]? = some 7 ∧
      (lanesOfWord 0x554E434100000007)[7]? = some 0x55 := by decide

theorem witness_HostReadAfterWrite :
    ([Slot.x 0, .x 1, .x 15, .limb 0, .limb 7].all fun slot =>
      decide ((port [memWrite 0 slot.offset 9, memRead 1 slot.offset] State.reset).pending =
        memWrite 0 slot.offset 9 :: memRead 1 slot.offset :: [])) = true := by decide

theorem witness_IssuerDoesNotMatter :
    (port [.access ⟨0, 0x018, .write (lanesOfWord 0x1210)⟩] State.reset).pending =
        .access ⟨0, 0x018, .write (lanesOfWord 0x1210)⟩ :: [] ∧
      port [.access ⟨5, 0x018, .write (lanesOfWord 0x1210)⟩] State.reset =
        { State.reset with pending := .access { (⟨0, 0x018, .write (lanesOfWord 0x1210)⟩ : Access) with issuer := 5 } :: [] } := by
  decide

/-- The divisors 0 and 1, the least and the greatest that MAGIC serves. -/
theorem witness_MagicCommand :
    ((withX [(1, 0)]).readX 1).toNat % 2 ^ 32 = 0 ∧ ((withX [(1, 0x100000001)]).readX 1).toNat % 2 ^ 32 = 1 ∧
      2 ≤ ((withX [(1, 2)]).readX 1).toNat % 2 ^ 32 ∧ 2 ≤ ((withX [(1, 0xFFFFFFFF)]).readX 1).toNat % 2 ^ 32 := by decide

theorem witness_MagicConstantIsCeiling : (2 : Reg) ≠ 0#4 ∧ 2 ≤ ((withX [(1, 2)]).readX 1).toNat % 2 ^ 32 := by decide

theorem witness_RemainderBelowDivisor :
    (3 : Reg) ≠ 0#4 ∧ 1 ≤ ((withX [(4, 1)]).readX 4).toNat % 2 ^ 32 ∧ ((withX []).readX 4).toNat % 2 ^ 32 = 0 := by decide

/-- The divisor 58 with its magic constant: an exact dividend, the last of the clause a·e < 2^64, and an inexact one. -/
theorem witness_ExactnessCriterion :
    (3 : Reg) ≠ 0#4 ∧ ((withX [(2, 0x0469EE58469EE585)]).readX 2).toNat = magicNat 58 ∧
      542551296285575047 * errorTerm 58 < 2 ^ 64 ∧ ¬ 542551296285575048 * errorTerm 58 < 2 ^ 64 ∧
      542551296285575096 % 58 * 2 ^ 64 + 542551296285575096 * errorTerm 58 < 58 * 2 ^ 64 ∧
      ¬ 542551296285575097 % 58 * 2 ^ 64 + 542551296285575097 * errorTerm 58 < 58 * 2 ^ 64 := by decide

theorem witness_NarrowDivisionExact :
    ((withX [(2, 0x0000000100000002)]).readX 2).toNat = magicNat 0xFFFFFFFF ∧
      ((withX [(2, 0x8000000000000000)]).readX 2).toNat = magicNat 2 := by decide

/-- Each divisor of R108 with its magic constant. -/
theorem witness_WidenedDivisionExact :
    ((withX [(2, 0x0800000000000000)]).readX 2).toNat = magicNat 32 ∧
      ((withX [(2, 0x0400000000000000)]).readX 2).toNat = magicNat 64 ∧
      ((withX [(2, 0x0469EE58469EE585)]).readX 2).toNat = magicNat 58 ∧
      ((withX [(2, 0x00137B4824872745)]).readX 2).toNat = magicNat 3364 ∧
      ((withX [(2, 0x000055FCD47DEA9C)]).readX 2).toNat = magicNat 195112 := by decide

theorem witness_WidenedContractCounterexample :
    (withX [(1, 4611686017353646079), (2, 0x0000000100000002), (3, 0xFFFFFFFF)]).readX 1 = 4611686017353646079 ∧
      (withX [(1, 4611686017353646079), (2, 0x0000000100000002), (3, 0xFFFFFFFF)]).readX 2 = 0x0000000100000002 ∧
      (withX [(1, 4611686017353646079), (2, 0x0000000100000002), (3, 0xFFFFFFFF)]).readX 3 = 0xFFFFFFFF := by decide

/-- The least and the greatest power of two. -/
theorem witness_PowerOfTwoDivision :
    ((withX [(4, 2)]).readX 4).toNat % 2 ^ 32 = 2 ^ 1 ∧ (withX [(2, 0x8000000000000000)]).readX 2 = 1#64 <<< (64 - 1) ∧
      ((withX [(4, 0x80000000)]).readX 4).toNat % 2 ^ 32 = 2 ^ 31 ∧
      (withX [(2, 0x200000000)]).readX 2 = 1#64 <<< (64 - 31) := by decide

/-- The last legal and the first illegal limb under the reset CTRL, and the limbs next to `first`. -/
theorem witness_LdivmodCommand :
    State.reset.ctrl.nl.toNat + 1 ≤ (4 : BitVec 3).toNat ∧ (3 : BitVec 3).toNat < State.reset.ctrl.nl.toNat + 1 ∧
      (3 : LimbIndex).val ≤ (3 : BitVec 3).toNat ∧ (3 : BitVec 3).toNat < (4 : LimbIndex).val := by decide

/-- V-M1's first pass. -/
def passState : State := fullLimbs (withX [(3, 195112), (4, 0x000055FCD47DEA9C)])

theorem passState_wellFormed : LimbsWellFormed passState := by
  unfold LimbsWellFormed
  decide

theorem witness_LongDivisionLaw :
    (3 : BitVec 3).toNat < passState.ctrl.limbCount ∧ LimbsWellFormed passState ∧
      (∀ j : LimbIndex, (3 : BitVec 3).toNat < j.val → j.val < passState.ctrl.limbCount → passState.readLimb j = 0#64) ∧
      (passState.readX 3).toNat % 2 ^ 32 = 195112 ∧ (passState.readX 4).toNat = magicNat 195112 ∧
      ∀ a, a < 195112 * 2 ^ passState.ctrl.limbWidth → a * errorTerm 195112 < 2 ^ 64 := by
  refine ⟨by decide, passState_wellFormed, by decide, by decide, by decide, fun a ha => ?_⟩
  rw [show passState.ctrl.limbWidth = 30 by decide] at ha
  rw [show errorTerm 195112 = 65632 by decide]
  omega

/-- V-M2's single limb, from `first = 0`. -/
theorem witness_SkippingZeroLimbs :
    (0 : BitVec 3).toNat ≤ (limbs [(0, 0x3FFFFFFF)] State.reset).ctrl.nl.toNat ∧
      ∀ j : LimbIndex, (0 : BitVec 3).toNat < j.val → j.val ≤ (limbs [(0, 0x3FFFFFFF)] State.reset).ctrl.nl.toNat →
        (limbs [(0, 0x3FFFFFFF)] State.reset).readLimb j = 0#64 := by decide

theorem witness_SevenPassesGiveDigits :
    (5 : Reg) ≠ 0#4 ∧ (5 : Reg) ≠ 3 ∧ (5 : Reg) ≠ 4 ∧ passState.ctrl.limbWidth = 30 ∧ passState.ctrl.limbCount = 4 ∧
      LimbsWellFormed passState ∧ (passState.readX 3).toNat % 2 ^ 32 = 58 ^ 3 ∧
      (passState.readX 4).toNat = magicNat (58 ^ 3) :=
  ⟨by decide, by decide, by decide, by decide, by decide, passState_wellFormed, by decide, by decide⟩

/-- The last limb within N and the first above it. -/
theorem witness_LmuladdCommand :
    (3 : LimbIndex).val < State.reset.ctrl.nl.toNat + 1 ∧ State.reset.ctrl.nl.toNat + 1 ≤ (4 : LimbIndex).val := by decide

theorem witness_HornerStepLaw : LimbsWellFormed passState := passState_wellFormed

theorem witness_HornerAccumulation :
    (6 : Reg) ≠ 0#4 ∧ (3 : Reg) ≠ 6 ∧ (3 : Reg) ≠ 7 ∧ 1 ≤ ((withX [(3, 195112)]).readX 3).toNat ∧
      (∀ j : LimbIndex, j.val < (withX [(3, 195112)]).ctrl.limbCount → (withX [(3, 195112)]).readLimb j = 0#64) ∧
      (withX [(3, 195112)]).status.ovf = false := by decide

theorem witness_PackHoldsPayload :
    (5 : Reg) ≠ 0#4 ∧ (6 : Reg) ≠ 0#4 ∧ (5 : Reg) ≠ 6 ∧ State.reset.ctrl.limbWidth = 30 ∧
      State.reset.ctrl.limbCount = 4 := by decide

/-- A set position and the first result bit past the mask's positions. -/
theorem witness_PextGathers :
    (0x8000000000000001 : Word).getLsbD 63 = true ∧ (0x8000000000000001 : Word).getLsbD 0 = true ∧
      maskRank 0x8000000000000001 64 ≤ 2 := by decide

theorem witness_PdepOfPext : (14 : Reg) ≠ 0#4 ∧ (14 : Reg) ≠ 13 := by decide

/-- Registers for both round trips, and the greatest half and version. -/
theorem witness_MsbRoundTrip :
    (3 : Reg) ≠ 0#4 ∧ (4 : Reg) ≠ 0#4 ∧ (3 : Reg) ≠ 4 ∧ (3 : Reg) ≠ 1 ∧ (10 : Reg) ≠ 0#4 ∧ (3 : Reg) ≠ 10 ∧
      ((withX [(1, 0x0FFFFFFFFFFFFFFF)]).readX 1).toNat < 2 ^ 60 ∧ ((withX [(2, 15)]).readX 2).toNat < 16 := by decide

theorem witness_LsbRoundTrips :
    (3 : Reg) ≠ 0#4 ∧ (4 : Reg) ≠ 0#4 ∧ (3 : Reg) ≠ 4 ∧ (3 : Reg) ≠ 1 ∧ (10 : Reg) ≠ 0#4 := by decide

theorem witness_LexicalOrder :
    (3 : Reg) ≠ 0#4 ∧ ((withX [(1, 0xA456426614174003), (2, 0xA456426614174004)]).readX 1).toNat / 2 ^ 62 =
      ((withX [(1, 0xA456426614174003), (2, 0xA456426614174004)]).readX 2).toNat / 2 ^ 62 := by decide

theorem witness_NopCommand :
    (port [cmdWrite 0 0x100] State.reset).pending = cmdWrite 0 0x100 :: [] ∧ State.reset.status.err = false ∧
      (0x100 : Word) ≠ 0 ∧ (0x100 : Word).toNat % 256 = 0 := by decide

/-- P1's registers before its steps 6 to 9. -/
def splitState : State :=
  withX [(1, 58), (2, 0x0469EE58469EE585), (3, 3364), (4, 0x00137B4824872745), (9, 195111)]

/-- With three named destinations, and with x0 as the middle or the last one. -/
theorem witness_SplitSuperDigit :
    Pseudo.wellFormed (.split3 12 11 10 9 2 1 4 3) = true ∧ Pseudo.wellFormed (.split3 12 11 0 9 2 1 4 3) = true ∧
      Pseudo.wellFormed (.split3 12 0 10 9 2 1 4 3) = true ∧ (splitState.readX 9).toNat < 58 ^ 3 ∧
      (splitState.readX 2).toNat = magicNat 58 ∧ splitState.readX 1 = 58 ∧
      (splitState.readX 4).toNat = magicNat (58 ^ 2) ∧ splitState.readX 3 = 3364 := by decide

end Sys2Proof.Tests
end

section
/-! The state right after reset, and the host writes to CTRL and STATUS: what each leaves, said about the update itself,
and then about the step that performs it (10_state.md rules R24, R25, R29, R30, R33). -/

namespace Sys2Proof.Machine

/-! ### Reset -/

@[simp] theorem readX_reset (r : Reg) : State.reset.readX r = 0#64 := by
  revert r
  decide

@[simp] theorem readLimb_reset (j : LimbIndex) : State.reset.readLimb j = 0#64 := by
  revert j
  decide

/-- Settles O1, register by register. -/
theorem resetValues : Obligations.ResetValues :=
  ⟨readX_reset, readLimb_reset, by decide⟩

/-! ### A host write at the port -/

/-- The port serves a host write by what the register's write leaves, and the reply to its issuer. -/
theorem step_memWrite_served {s t : State} {h : Nat} {slot : Slot} {v : Word} {rest : List PortEvent}
    (hp : s.pending = memWrite h slot.offset v :: rest) (hw : writeSlot slot v { s with pending := rest } = .next t) :
    step s = .next (t.answer h .done) ∧ PortServed rest h .done s (t.answer h .done) := by
  obtain ⟨u, hu, hpending, hreplies⟩ := writeSlot_next slot v { s with pending := rest }
  cases hw.symm.trans hu
  exact ⟨by rw [step_memWrite hp, hw, thenAnswer], hpending, congrArg (· ++ _) hreplies⟩

/-! ### CTRL -/

theorem legalLimbWidth_iff (lw : BitVec 5) : Config.legalLimbWidth lw = true ↔ 1 ≤ lw.toNat ∧ lw.toNat ≤ 30 := by
  simp [Config.legalLimbWidth]

@[simp] theorem toNat_written_nl (c : Ctrl) (v : Word) : (c.written v).nl.toNat = v.toNat / 2 ^ 8 % 8 := by
  simp [Ctrl.written, Nat.shiftRight_eq_div_pow]

/-- The width field of a CTRL value, v[4:0]. -/
theorem toNat_extract_lw (v : Word) : (v.extractLsb' 0 5).toNat = v.toNat % 32 := by
  simp

theorem written_lw_of_legal (c : Ctrl) {v : Word} (h : 1 ≤ v.toNat % 32 ∧ v.toNat % 32 ≤ 30) :
    (c.written v).lw.toNat = v.toNat % 32 := by
  have hlegal : Config.legalLimbWidth (v.extractLsb' 0 5) = true := by rwa [legalLimbWidth_iff, toNat_extract_lw]
  rw [Ctrl.written, if_pos hlegal, toNat_extract_lw]

theorem written_lw_of_illegal (c : Ctrl) {v : Word} (h : v.toNat % 32 = 0 ∨ 31 ≤ v.toNat % 32) :
    (c.written v).lw = c.lw := by
  have hillegal : ¬ Config.legalLimbWidth (v.extractLsb' 0 5) = true := by
    rw [legalLimbWidth_iff, toNat_extract_lw]
    omega
  rw [Ctrl.written, if_neg hillegal]

/-- What a read of CTRL returns: the two fields in their places, every other bit 0 (R24). -/
theorem toNat_ctrl_word (c : Ctrl) : c.word.toNat = c.lw.toNat + 2 ^ 8 * c.nl.toNat := by
  have happend : c.word.toNat = c.nl.toNat <<< 3 <<< 5 ||| c.lw.toNat := by
    simp only [Ctrl.word, BitVec.toNat_append, BitVec.toNat_zero, Nat.zero_shiftLeft, Nat.zero_or, Nat.or_zero]
  rw [happend, ← Nat.shiftLeft_add, ← Nat.shiftLeft_add_eq_or_of_lt (Nat.lt_of_lt_of_le c.lw.isLt (by norm_num)),
    Nat.shiftLeft_eq]
  omega

/-- Settles O21: the step answers what `writeCtrl` leaves, whose CTRL is `Ctrl.written`. -/
theorem ctrlWrite : Obligations.CtrlWrite := by
  intro s h v rest hp
  obtain ⟨hstep, hserved⟩ := step_memWrite_served (slot := .ctrl) hp rfl
  exact ⟨_, hstep, hserved, toNat_written_nl s.ctrl v, written_lw_of_legal s.ctrl, written_lw_of_illegal s.ctrl,
    toNat_ctrl_word _, fun _ => rfl, fun _ => rfl, rfl, rfl⟩

/-! ### STATUS -/

/-- A bit of a word as a digit of its number. -/
theorem getLsbD_iff_div_mod (v : Word) (i : Nat) : v.getLsbD i = true ↔ v.toNat / 2 ^ i % 2 = 1 := by
  rw [BitVec.getLsbD, Nat.testBit_eq_decide_div_mod_eq, decide_eq_true_iff]

/-- A field after an update that bit `i` of the written value asks for. -/
theorem applyIf_bit {α : Type} (g : State → α) (v : Word) (i : Nat) (f : State → State) (s : State) :
    g (applyIf (v.getLsbD i) f s) = if v.toNat / 2 ^ i % 2 = 1 then g (f s) else g s := by
  rw [applyIf, apply_ite g]
  exact if_congr (getLsbD_iff_div_mod v i) rfl rfl

/-- A field that clearing OVF and DROP leaves alone follows bit 0 of the written value: error return or nothing (R29). -/
theorem writeStatus_errorField {α : Type} (g : State → α) (hovf : ∀ u, g (clearOvf u) = g u)
    (hdrop : ∀ u, g (clearDrop u) = g u) (s : State) (v : Word) :
    g (s.writeStatus v) = if v.toNat % 2 = 1 then g (clearError s) else g s := by
  rw [State.writeStatus, applyIf_same g _ _ _ (hdrop _), applyIf_same g _ _ _ (hovf _), applyIf_bit g, pow_zero,
    Nat.div_one]

/-- The error record after a STATUS write (R29). -/
theorem writeStatus_errorRecord (s : State) (v : Word) :
    if v.toNat % 2 = 1 then
      (s.writeStatus v).status.err = false ∧ (s.writeStatus v).status.cause = none ∧ (s.writeStatus v).faultcmd = 0#64
    else
      (s.writeStatus v).status.err = s.status.err ∧ (s.writeStatus v).status.cause = s.status.cause ∧
        (s.writeStatus v).faultcmd = s.faultcmd := by
  have herr := writeStatus_errorField (·.status.err) (fun _ => rfl) (fun _ => rfl) s v
  have hcause := writeStatus_errorField (·.status.cause) (fun _ => rfl) (fun _ => rfl) s v
  have hfaultcmd := writeStatus_errorField (·.faultcmd) (fun _ => rfl) (fun _ => rfl) s v
  rw [herr, hcause, hfaultcmd]
  split <;> exact ⟨rfl, rfl, rfl⟩

/-- OVF follows bit 1 of the written value (R29). -/
theorem writeStatus_ovf (s : State) (v : Word) :
    (s.writeStatus v).status.ovf = if v.toNat / 2 % 2 = 1 then false else s.status.ovf :=
  calc (s.writeStatus v).status.ovf
    _ = (applyIf (v.getLsbD 1) clearOvf (applyIf (v.getLsbD 0) clearError s)).status.ovf :=
      applyIf_same (·.status.ovf) _ _ _ rfl
    _ = if v.toNat / 2 % 2 = 1 then false else (applyIf (v.getLsbD 0) clearError s).status.ovf :=
      applyIf_bit (·.status.ovf) v 1 _ _
    _ = if v.toNat / 2 % 2 = 1 then false else s.status.ovf :=
      congrArg _ (applyIf_same (·.status.ovf) _ _ _ rfl)

/-- DROP follows bit 2 of the written value (R29). -/
theorem writeStatus_drop (s : State) (v : Word) :
    (s.writeStatus v).status.drop = if v.toNat / 4 % 2 = 1 then false else s.status.drop :=
  calc (s.writeStatus v).status.drop
    _ = if v.toNat / 4 % 2 = 1 then false
        else (applyIf (v.getLsbD 1) clearOvf (applyIf (v.getLsbD 0) clearError s)).status.drop :=
      applyIf_bit (·.status.drop) v 2 _ _
    _ = if v.toNat / 4 % 2 = 1 then false else s.status.drop :=
      congrArg _ ((applyIf_same (·.status.drop) _ _ _ rfl).trans (applyIf_same (·.status.drop) _ _ _ rfl))

/-- Settles O22: the step answers what `writeStatus` leaves, bit by bit of the written value. -/
theorem statusWriteOneToClear : Obligations.StatusWriteOneToClear := by
  intro s h v rest hp
  obtain ⟨hstep, hserved⟩ := step_memWrite_served (slot := .status) hp rfl
  exact ⟨_, hstep, hserved, writeStatus_errorRecord _ v, writeStatus_ovf _ v, writeStatus_drop _ v,
    readX_writeStatus _ v, readLimb_writeStatus _ v, writeStatus_ctrl _ v⟩

end Sys2Proof.Machine
end

section
/-! Bus errors: which offsets are reserved, which accesses the port admits, and what it answers to each kind of access
(20_memory.md rules R52, R55). -/

namespace Sys2Proof.Machine

/-- No register stands at an offset exactly when it is misaligned or reserved (R52, R55). -/
theorem slotAt_eq_none_iff (offset : BitVec 9) :
    slotAt offset = none ↔
      offset.toNat % 8 ≠ 0 ∨ (0x028 ≤ offset.toNat ∧ offset.toNat ≤ 0x07F) ∨
        (0x140 ≤ offset.toNat ∧ offset.toNat ≤ 0x1FF) := by
  have hwindow : offset.toNat < 512 := offset.isLt
  simp only [slotAt]
  split_ifs <;> simp only [false_iff, true_iff] <;> omega

/-- The port reaches no register exactly for the accesses R52 and R55 name. -/
theorem admittedSlot_eq_none_iff (a : Access) : admittedSlot a = none ↔ NotAdmitted a := by
  unfold admittedSlot NotAdmitted
  split_ifs with hwidth
  · simp only [slotAt_eq_none_iff, hwidth, ne_eq, not_true_eq_false, false_or]
  · exact iff_of_true rfl (.inl hwidth)

/-- An access the port admits is served by its data or its completion, never by a bus error. -/
theorem step_admitted {s : State} {a : Access} {slot : Slot} {rest : List PortEvent}
    (hp : s.pending = .access a :: rest) (ha : admittedSlot a = some slot) :
    ∃ t r, step s = .next t ∧ PortServed rest a.issuer r s t ∧ r ≠ .busError := by
  rw [step_event hp, performEvent, performAccess, ha]
  cases a.kind with
  | read n => exact ⟨_, _, rfl, ⟨rfl, rfl⟩, nofun⟩
  | write lanes =>
    obtain ⟨t, ht, hpending, hreplies⟩ := writeSlot_next slot (wordOfLanes lanes) { s with pending := rest }
    exact ⟨_, .done, congrArg (thenAnswer a.issuer .done) ht, ⟨hpending, congrArg (· ++ _) hreplies⟩, nofun⟩

/-- Settles O24: the port reaches no register and answers a bus error, or reaches one and serves it. -/
theorem busErrorExactly : Obligations.BusErrorExactly := by
  intro s a rest hp
  cases ha : admittedSlot a with
  | none =>
    have hrefused : NotAdmitted a := (admittedSlot_eq_none_iff a).mp ha
    exact ⟨_, .busError, step_notAdmitted hp ha, ⟨rfl, rfl⟩, iff_of_true rfl hrefused,
      fun _ => ⟨fun _ => rfl, fun _ => rfl, rfl, rfl, rfl⟩⟩
  | some slot =>
    have hadmitted : ¬ NotAdmitted a := by simp [← admittedSlot_eq_none_iff, ha]
    obtain ⟨t, r, hstep, hserved, hr⟩ := step_admitted hp ha
    exact ⟨t, r, hstep, hserved, iff_of_false hr hadmitted, fun h => absurd h hadmitted⟩

end Sys2Proof.Machine
end

section
/-! MAGIC and the two quotients of CDIV: their words decode, and the value each writes (41_cdiv.md rules R101, R102,
R104). -/

namespace Sys2Proof.Machine

/-! ### Decoding a packed word (R77) -/

/-- A packed word that fits its opcode's row decodes to that row's command on the packed fields. -/
theorem decode_packFields (op : Opcode) (imm8 : BitVec 8) (rc rb ra rd : Reg)
    (hfits : packFields imm8 rc rb ra rd op.code &&& op.mask = op.matchWord) :
    decode ((packFields imm8 rc rb ra rd op.code).setWidth 64) = .command (op.build rd ra rb rc imm8) := by
  simp [decode, hfits]

/-! ### MAGIC (R101) -/

/-- The constant MAGIC computes for a divisor operand, over the divisor as a number. -/
theorem magicConstant_low32 (v : Word) :
    magicConstant (low32 v) = BitVec.ofNat 64 ((2 ^ 64 - 1) / (v.toNat % 2 ^ 32) + 1) := by
  rw [magicConstant, toNat_low32]

/-- Settles O28: the row of MAGIC, then one equation of `execMagic` for each of its three ranges of divisors. -/
theorem magicCommand : Obligations.MagicCommand := by
  intro rd ra s
  refine ⟨decode_packFields .magic 0 0 0 ra rd (Laws.EncodedRow.magic rd ra rfl), fun hzero => ?_, fun hone => ?_,
    fun hrange => ?_⟩
  · exact ⟨_, execMagic_zero rd ra s hzero, raiseBlockError_entered _ _ s⟩
  · exact ⟨_, execMagic_one rd ra s hone, raiseBlockError_entered _ _ s⟩
  · refine ⟨_, execMagic_of_two_le rd ra s hrange, ?_⟩
    rw [← magicConstant_low32]
    exact writeX_writesOnlyX s rd _

/-! ### The high half of a product (R8, R102, R104) -/

/-- `mulhi` is the high half of the product taken at 128 bits. -/
theorem mulhi_eq_extractLsb' (a b : Word) :
    mulhi a b = (a.setWidth 128 * b.setWidth 128).extractLsb' 64 64 := by
  have hexact : a.toNat * b.toNat < 2 ^ 128 := (Nat.mul_lt_mul'' a.isLt b.isLt).trans_eq (pow_add 2 64 64).symm
  have hhigh : a.toNat * b.toNat / 2 ^ 64 < 2 ^ 64 := mul_div_lt a b
  apply BitVec.eq_of_toNat_eq
  rw [toNat_mulhi, BitVec.extractLsb'_toNat, BitVec.toNat_mul, BitVec.toNat_setWidth_of_le (by norm_num),
    BitVec.toNat_setWidth_of_le (by norm_num), Nat.mod_eq_of_lt hexact, Nat.shiftRight_eq_div_pow,
    Nat.mod_eq_of_lt hhigh]

/-- A narrow operand widened to 128 bits is its low 32 bits widened at once. -/
theorem setWidth_low32 (v : Word) : (low32 v).setWidth 128 = (v.extractLsb' 0 32).setWidth 128 := by
  apply BitVec.eq_of_toNat_eq
  rw [BitVec.toNat_setWidth_of_le (by norm_num), BitVec.toNat_setWidth_of_le (by norm_num), toNat_low32,
    BitVec.extractLsb'_toNat, Nat.shiftRight_zero]

/-- FDIVN writes the high half of the narrow dividend's product. -/
theorem exec_fdivn (rd ra rb : Reg) (s : State) :
    exec (.fdivn rd ra rb) s = .next (s.writeX rd
      ((((s.readX ra).extractLsb' 0 32).setWidth 128 * (s.readX rb).setWidth 128).extractLsb' 64 64)) := by
  rw [← setWidth_low32, ← mulhi_eq_extractLsb']
  rfl

/-- FDIVW writes the high half of the whole dividend's product. -/
theorem exec_fdivw (rd ra rb : Reg) (s : State) :
    exec (.fdivw rd ra rb) s = .next (s.writeX rd
      (((s.readX ra).setWidth 128 * (s.readX rb).setWidth 128).extractLsb' 64 64)) := by
  rw [← mulhi_eq_extractLsb']
  rfl

/-- Settles O30: both rows decode, and each command writes one register. -/
theorem quotientCommands : Obligations.QuotientCommands := by
  intro rd ra rb s
  exact ⟨decode_packFields .fdivn 0 0 rb ra rd (Laws.EncodedRow.fdivn rd ra rb rfl),
    decode_packFields .fdivw 0 0 rb ra rd (Laws.EncodedRow.fdivw rd ra rb rfl),
    ⟨_, exec_fdivn rd ra rb s, writeX_writesOnlyX s rd _⟩,
    ⟨_, exec_fdivw rd ra rb s, writeX_writesOnlyX s rd _⟩⟩

end Sys2Proof.Machine
end

section
/-! The commands of MLBC: their words decode, the value MADD, LHI and LLO write, and what LPACK, LDIVMOD and LMULADD
leave in the limbs (42_mlbc.md rules R121, R122, R124 to R127). -/

namespace Sys2Proof.Machine

/-! ### MADD (R124) -/

/-- The multiply-add is the sum and product of 64-bit words. -/
theorem multiplyAdd_eq (a b c : Word) : multiplyAdd a b c = a * b + c := by
  apply BitVec.eq_of_toNat_eq
  rw [multiplyAdd, BitVec.toNat_ofNat, BitVec.toNat_add, BitVec.toNat_mul, Nat.mod_add_mod]

/-- MADD writes the multiply-add of its three sources. -/
theorem exec_madd (rd ra rb rc : Reg) (s : State) :
    exec (.madd rd ra rb rc) s = .next (s.writeX rd (s.readX ra * s.readX rb + s.readX rc)) := by
  rw [← multiplyAdd_eq]
  rfl

/-- Settles O45: the row decodes, and the command writes one register. -/
theorem maddCommand : Obligations.MaddCommand := by
  intro rd ra rb rc s
  exact ⟨decode_packFields .madd 0 rc rb ra rd (Laws.EncodedRow.madd rd ra rb rc rfl),
    _, exec_madd rd ra rb rc s, writeX_writesOnlyX s rd _⟩

/-! ### LPACK (R125) -/

/-- Limbs 4 to 7 of a packed payload are zero. -/
theorem limbAt_packedLimbs_of_ge (hi lo : Word) {k : Nat} (h4 : 4 ≤ k) (h8 : k < 8) :
    limbAt (packedLimbs hi lo) k = 0#64 := by
  interval_cases k <;> rfl

/-- Settles O46: the limb file is the packed payload, whose four 30-bit limbs are fields of the two halves. -/
theorem lpackCommand : Obligations.LpackCommand := by
  intro ra rb s
  refine ⟨decode_packFields .lpack 0 0 rb ra 0 (Laws.EncodedRow.lpack ra rb rfl),
    s.withLimbs (packedLimbs (s.readX ra) (s.readX rb)), rfl, ?_, ?_, ?_, ?_,
    fun j hj => limbAt_packedLimbs_of_ge _ _ hj j.isLt, fun _ => rfl, rfl, rfl, rfl, rfl, rfl⟩
  · exact (toNat_field (s.readX rb) 29 0 (by norm_num)).trans (by rw [pow_zero, Nat.div_one])
  · exact toNat_field (s.readX rb) 59 30 (by norm_num)
  · exact (toNat_field (s.readX ra) 29 0 (by norm_num)).trans (by rw [pow_zero, Nat.div_one])
  · exact toNat_field (s.readX ra) 59 30 (by norm_num)

/-! ### LHI and LLO (R126, R127) -/

/-- A joined half as a number: the upper limb's low 30 bits above the lower limb's. -/
theorem joinedHalf_eq_ofNat (upper lower : Word) :
    joinedHalf upper lower = BitVec.ofNat 64 (upper.toNat % 2 ^ 30 * 2 ^ 30 + lower.toNat % 2 ^ 30) := by
  have hlower : lower.toNat % 2 ^ 30 < 2 ^ 30 := Nat.mod_lt _ (by norm_num)
  apply BitVec.eq_of_toNat_eq
  rw [joinedHalf, BitVec.toNat_setWidth, BitVec.toNat_append, BitVec.toNat_ofNat, BitVec.extractLsb'_toNat,
    BitVec.extractLsb'_toNat, Nat.shiftRight_zero, Nat.shiftRight_zero, ← Nat.shiftLeft_add_eq_or_of_lt hlower,
    Nat.shiftLeft_eq]

/-- LHI writes the half joined from limbs 3 and 2. -/
theorem exec_lhi (rd : Reg) (s : State) :
    exec (.lhi rd) s = .next (s.writeX rd
      (BitVec.ofNat 64 ((s.readLimb 3).toNat % 2 ^ 30 * 2 ^ 30 + (s.readLimb 2).toNat % 2 ^ 30))) := by
  rw [← joinedHalf_eq_ofNat]
  rfl

/-- LLO writes the half joined from limbs 1 and 0. -/
theorem exec_llo (rd : Reg) (s : State) :
    exec (.llo rd) s = .next (s.writeX rd
      (BitVec.ofNat 64 ((s.readLimb 1).toNat % 2 ^ 30 * 2 ^ 30 + (s.readLimb 0).toNat % 2 ^ 30))) := by
  rw [← joinedHalf_eq_ofNat]
  rfl

/-- Settles O47: both rows decode, and each command writes one register. -/
theorem halfReadCommands : Obligations.HalfReadCommands := by
  intro rd s
  exact ⟨decode_packFields .lhi 0 0 0 0 rd (Laws.EncodedRow.lhi rd rfl),
    decode_packFields .llo 0 0 0 0 rd (Laws.EncodedRow.llo rd rfl),
    ⟨_, exec_lhi rd s, writeX_writesOnlyX s rd _⟩, ⟨_, exec_llo rd s, writeX_writesOnlyX s rd _⟩⟩

/-! ### A pass over the limbs with its result to a data register -/

/-- Replacing the limb file before a data register is written leaves the data registers as the write alone does. -/
theorem withLimbs_writeX_writesX (s : State) (l : Vector Word 8) (rd : Reg) (v : Word) :
    WritesX rd v s ((s.withLimbs l).writeX rd v) :=
  writeX_writesX (s.withLimbs l) rd v

/-! ### LDIVMOD (R121) -/

/-- The limb an immediate names when its upper bits are zero (R73). -/
@[simp] theorem firstLimb_zero_append (first : BitVec 3) : firstLimb (0#5 ++ first) = first.toNat := by
  revert first
  decide

/-- Every limb number is a legal immediate of LDIVMOD (R73). -/
theorem ldivmod_wellFormed (rd rb rc : Reg) (first : BitVec 3) :
    (Instr.ldivmod rd rb rc (0#5 ++ first)).wellFormed = true := by
  have hlegal : ∀ first : BitVec 3, immediateLegal (0#5 ++ first) = true := by decide
  exact hlegal first

/-- Settles O38: the row of LDIVMOD, then one equation of `execLdivmod` for a limb past the count and one for an active
limb, where the loop's specification gives the running remainders. -/
theorem ldivmodCommand : Obligations.LdivmodCommand := by
  intro rd rb rc first s
  refine ⟨decode_packFields .ldivmod (0#5 ++ first) rc rb 0 rd
    (Laws.EncodedRow.ldivmod rd rb rc _ (ldivmod_wellFormed rd rb rc first)), fun hpast => ?_, fun hactive => ?_⟩
  · exact ⟨_, execLdivmod_index rd rb rc _ s (by rwa [firstLimb_zero_append]), raiseBlockError_entered _ _ s⟩
  · have hpass := execLdivmod_pass rd rb rc (0#5 ++ first) s (by rwa [firstLimb_zero_append])
    rw [firstLimb_zero_append] at hpass
    obtain ⟨rem, htop, hlast, hstep, habove⟩ :=
      divLoop_spec s.ctrl.limbWidth (low32 (s.readX rb)) (s.readX rc) (first.toNat + 1) first.isLt s.limbs 0#64
    rw [hlast] at hpass
    refine ⟨_, rem, hpass, htop, fun j hj => ?_, fun j hj => ?_, withLimbs_writeX_writesX s _ rd _,
      writeX_ctrl _ _ _, writeX_status _ _ _, writeX_faultcmd _ _ _, writeX_pending _ _ _, writeX_replies _ _ _⟩
    · obtain ⟨hquotient, hremainder⟩ := hstep j.val (Nat.lt_succ_of_le hj)
      rw [readLimb_writeX, readLimb_withLimbs, hquotient, hremainder, toNat_fastDiv, toNat_fastMod, toNat_divTemp,
        toNat_low32]
      exact ⟨rfl, rfl⟩
    · rw [readLimb_writeX, readLimb_withLimbs]
      exact habove j.val hj

/-! ### LMULADD (R122) -/

/-- OVF after a carry out: it is sticky, and set by a nonzero carry. -/
theorem withCarry_ovf_iff (st : Status) (c : Word) :
    (st.withCarry c).ovf = true ↔ st.ovf = true ∨ c ≠ 0#64 := by
  simp [Status.withCarry]

@[simp] theorem withCarry_err (st : Status) (c : Word) : (st.withCarry c).err = st.err := rfl
@[simp] theorem withCarry_drop (st : Status) (c : Word) : (st.withCarry c).drop = st.drop := rfl
@[simp] theorem withCarry_cause (st : Status) (c : Word) : (st.withCarry c).cause = st.cause := rfl

/-- Settles O42: the loop's specification gives the running carries, and the carry out goes to `x[rd]` and OVF. -/
theorem lmuladdCommand : Obligations.LmuladdCommand := by
  intro rd ra rb s
  refine ⟨decode_packFields .lmuladd 0 0 rb ra rd (Laws.EncodedRow.lmuladd rd ra rb rfl), ?_⟩
  have hwidth : s.ctrl.limbWidth ≤ 64 := (s.ctrl.lw.isLt.trans (by norm_num)).le
  have hcount : 0 + s.ctrl.limbCount ≤ 8 := (Nat.zero_add _).trans_le s.ctrl.nl.isLt
  obtain ⟨carry, hin, hout, hstep, habove⟩ :=
    mulAddLoop_spec s.ctrl.limbWidth hwidth (s.readX ra) s.ctrl.limbCount 0 hcount s.limbs (s.readX rb)
  rw [Nat.zero_add] at hout hstep habove
  have hexec : exec (.lmuladd rd ra rb) s = .next (((s.withLimbs
      (mulAddLoop s.ctrl.limbWidth (s.readX ra) s.ctrl.limbCount 0 s.limbs (s.readX rb)).1).writeX rd
      (carry s.ctrl.limbCount)).noteCarry (carry s.ctrl.limbCount)) := by
    rw [← hout]
    rfl
  refine ⟨_, carry, hexec, hin, fun j hj => ?_, fun j hj => ?_, withLimbs_writeX_writesX s _ rd _, ?_,
    by simp, by simp, by simp, writeX_faultcmd _ _ _, writeX_ctrl _ _ _, writeX_pending _ _ _, writeX_replies _ _ _⟩
  · rw [readLimb_noteCarry, readLimb_writeX, readLimb_withLimbs]
    exact hstep j.val (Nat.zero_le _) hj
  · rw [readLimb_noteCarry, readLimb_writeX, readLimb_withLimbs]
    exact habove j.val (.inr hj)
  · rw [noteCarry_status, writeX_status, withLimbs_status]
    exact withCarry_ovf_iff s.status _

end Sys2Proof.Machine
end

section
/-! The commands of BFX that use fixed masks (43_bfx.md rules R142 to R154). A fixed mask is a few runs of set bits, so a
gather or scatter over it moves a few slices of its operand whole; each command writes those slices joined. -/

namespace Sys2Proof.Machine

/-! ### Gather by rank, and how ranks grow along a run of set bits (R9) -/

/-- A gather puts the bit at a set position of the mask at that position's rank. -/
theorem getLsbD_pextWord_maskRank (v m : Word) {p : Nat} (hp : p < 64) (hset : m.getLsbD p = true) :
    (pextWord v m).getLsbD (maskRank m p) = v.getLsbD p := by
  rw [getLsbD_pextWord, setPositions_rank m hp hset]
  rfl

/-- A gather is zero from the number of set positions up. -/
theorem getLsbD_pextWord_of_le (v m : Word) {j : Nat} (hj : maskRank m 64 ≤ j) :
    (pextWord v m).getLsbD j = false := by
  rw [getLsbD_pextWord, List.getElem?_eq_none (by rwa [setPositions_length])]
  rfl

/-- The rank after a set position is one more. -/
theorem maskRank_succ_of_set {m : Word} {p : Nat} (hset : m.getLsbD p = true) :
    maskRank m (p + 1) = maskRank m p + 1 := by
  rw [maskRank, List.range_succ, List.filter_append, List.length_append]
  simp [maskRank, hset]

/-- Each bit of a run of set bits is set. -/
theorem getLsbD_of_run {m : Word} {lo n i : Nat} (hrun : m.extractLsb' lo n = BitVec.allOnes n) (hi : i < n) :
    m.getLsbD (lo + i) = true := by
  have hbit := congrArg (·.getLsbD i) hrun
  simpa [BitVec.getLsbD_extractLsb', hi] using hbit

/-- Along a run of set bits the rank grows with the position. -/
theorem maskRank_of_run {m : Word} {lo n : Nat} (hrun : m.extractLsb' lo n = BitVec.allOnes n) (i : Nat) (hi : i ≤ n) :
    maskRank m (lo + i) = maskRank m lo + i := by
  induction i with
  | zero => rfl
  | succ i ih =>
    rw [← Nat.add_assoc, maskRank_succ_of_set (getLsbD_of_run hrun hi), ih (Nat.le_of_succ_le hi), Nat.add_assoc]

/-! ### Gather and scatter slice by slice -/

/-- A gather moves the slice under a run of set bits down to the run's rank. -/
theorem extractLsb'_pextWord (v : Word) {m : Word} {lo n : Nat} (hrun : m.extractLsb' lo n = BitVec.allOnes n) :
    (pextWord v m).extractLsb' (maskRank m lo) n = v.extractLsb' lo n := by
  ext i hi
  have hset := getLsbD_of_run hrun hi
  rw [BitVec.getElem_extractLsb', BitVec.getElem_extractLsb', ← maskRank_of_run hrun i hi.le,
    getLsbD_pextWord_maskRank v m (BitVec.lt_of_getLsbD hset) hset]

/-- A gather is its lowest bits, as many as the mask has set positions, zero-extended. -/
theorem pextWord_eq_setWidth (v m : Word) :
    pextWord v m = ((pextWord v m).extractLsb' 0 (maskRank m 64)).setWidth 64 := by
  ext j hj
  rw [BitVec.getElem_setWidth, BitVec.getLsbD_extractLsb', Nat.zero_add, ← BitVec.getLsbD_eq_getElem]
  rcases Nat.lt_or_ge j (maskRank m 64) with hlt | hge
  · simp [hlt]
  · simp [getLsbD_pextWord_of_le v m hge]

/-- A scatter moves the slice at the rank of a run of set bits up to the run. -/
theorem extractLsb'_pdepWord (v : Word) {m : Word} {lo n : Nat} (hrun : m.extractLsb' lo n = BitVec.allOnes n) :
    (pdepWord v m).extractLsb' lo n = v.extractLsb' (maskRank m lo) n := by
  ext i hi
  have hset := getLsbD_of_run hrun hi
  rw [BitVec.getElem_extractLsb', BitVec.getElem_extractLsb', getLsbD_pdepWord v m (BitVec.lt_of_getLsbD hset), hset,
    maskRank_of_run hrun i hi.le, Bool.true_and]

/-- A scatter is zero along a run of clear bits. -/
theorem extractLsb'_pdepWord_of_clear (v : Word) {m : Word} {lo n : Nat} (hrun : m.extractLsb' lo n = 0#n) :
    (pdepWord v m).extractLsb' lo n = 0#n := by
  ext i hi
  have hclear : m.getLsbD (lo + i) = false := by
    simpa [BitVec.getLsbD_extractLsb', hi] using congrArg (·.getLsbD i) hrun
  rw [BitVec.getElem_extractLsb', BitVec.getElem_zero]
  rcases Nat.lt_or_ge (lo + i) 64 with hlt | hge
  · rw [getLsbD_pdepWord v m hlt, hclear, Bool.false_and]
  · exact BitVec.getLsbD_of_ge _ _ hge

/-! ### The three compressions (R142, R145, R148) -/

/-- Gathering over the msb mask drops bits 15:12. -/
theorem pextWord_maskMsb (v : Word) :
    pextWord v Config.maskMsb = (v.extractLsb' 16 48 ++ v.extractLsb' 0 12 : BitVec (48 + 12)).setWidth 64 := by
  have hlow : (pextWord v Config.maskMsb).extractLsb' 0 12 = v.extractLsb' 0 12 :=
    extractLsb'_pextWord v (m := Config.maskMsb) (lo := 0) (by decide)
  have hhigh : (pextWord v Config.maskMsb).extractLsb' 12 48 = v.extractLsb' 16 48 :=
    extractLsb'_pextWord v (m := Config.maskMsb) (lo := 16) (by decide)
  rw [← hlow, ← hhigh, BitVec.extractLsb'_append_extractLsb'_eq_extractLsb' (Nat.zero_add 12).symm]
  exact pextWord_eq_setWidth v Config.maskMsb

/-- Gathering over the lsb mask drops bits 63:60. -/
theorem pextWord_maskLsb (v : Word) : pextWord v Config.maskLsb = (v.extractLsb' 0 60).setWidth 64 := by
  rw [← extractLsb'_pextWord v (m := Config.maskLsb) (lo := 0) (n := 60) (by decide)]
  exact pextWord_eq_setWidth v Config.maskLsb

/-- Gathering over the lexical mask drops bits 63:62 and 1:0. -/
theorem pextWord_maskLex (v : Word) : pextWord v Config.maskLex = (v.extractLsb' 2 60).setWidth 64 := by
  rw [← extractLsb'_pextWord v (m := Config.maskLex) (lo := 2) (n := 60) (by decide)]
  exact pextWord_eq_setWidth v Config.maskLex

/-- CMPMSB writes its operand without bits 15:12. -/
theorem exec_cmpmsb (rd ra : Reg) (s : State) :
    exec (.cmpmsb rd ra) s = .next (s.writeX rd
      (((s.readX ra).extractLsb' 16 48 ++ (s.readX ra).extractLsb' 0 12 : BitVec (48 + 12)).setWidth 64)) := by
  rw [← pextWord_maskMsb]
  rfl

/-- CMPLSB writes bits 59:0 of its operand. -/
theorem exec_cmplsb (rd ra : Reg) (s : State) :
    exec (.cmplsb rd ra) s = .next (s.writeX rd (((s.readX ra).extractLsb' 0 60).setWidth 64)) := by
  rw [← pextWord_maskLsb]
  rfl

/-- CMPLEX writes bits 61:2 of its operand. -/
theorem exec_cmplex (rd ra : Reg) (s : State) :
    exec (.cmplex rd ra) s = .next (s.writeX rd (((s.readX ra).extractLsb' 2 60).setWidth 64)) := by
  rw [← pextWord_maskLex]
  rfl

/-- Settles O49: the three rows decode, and each command writes one register. -/
theorem compressCommands : Obligations.CompressCommands := by
  intro rd ra s
  exact ⟨decode_packFields .cmpmsb 0 0 0 ra rd (Laws.EncodedRow.cmpmsb rd ra rfl),
    decode_packFields .cmplsb 0 0 0 ra rd (Laws.EncodedRow.cmplsb rd ra rfl),
    decode_packFields .cmplex 0 0 0 ra rd (Laws.EncodedRow.cmplex rd ra rfl),
    ⟨_, exec_cmpmsb rd ra s, writeX_writesOnlyX s rd _⟩,
    ⟨_, exec_cmplsb rd ra s, writeX_writesOnlyX s rd _⟩,
    ⟨_, exec_cmplex rd ra s, writeX_writesOnlyX s rd _⟩⟩

/-! ### Fields (R6) -/

/-- A slice of a field is a slice of the word. -/
theorem extractLsb'_field (v : Word) {hi lo i n : Nat} (hin : i + n ≤ hi + 1 - lo) (hwidth : hi + 1 - lo ≤ 64) :
    (field v hi lo).extractLsb' i n = v.extractLsb' (lo + i) n := by
  rw [field, BitVec.extractLsb'_setWidth_of_le (hin.trans hwidth)]
  ext j hj
  rw [BitVec.getElem_extractLsb', BitVec.getElem_extractLsb', BitVec.getLsbD_extractLsb',
    decide_eq_true (by omega), Bool.true_and, Nat.add_assoc]

/-- A field is the word of a quotient's remainder. -/
theorem field_eq_ofNat (v : Word) {hi lo : Nat} (hwidth : hi + 1 - lo ≤ 64) :
    field v hi lo = BitVec.ofNat 64 (v.toNat / 2 ^ lo % 2 ^ (hi + 1 - lo)) := by
  rw [← toNat_field v hi lo hwidth, BitVec.ofNat_toNat, BitVec.setWidth_eq]

/-- The field of all bits from `lo` up is a quotient. -/
theorem toNat_field_top (v : Word) {lo : Nat} (hlo : lo ≤ 64) : (field v 63 lo).toNat = v.toNat / 2 ^ lo := by
  have hlt : v.toNat / 2 ^ lo < 2 ^ (64 - lo) := by
    rw [Nat.div_lt_iff_lt_mul (by positivity), ← pow_add, Nat.sub_add_cancel hlo]
    exact v.isLt
  rw [toNat_field v 63 lo (Nat.sub_le _ _), Nat.mod_eq_of_lt hlt]

/-- The field of all bits from `lo` up, as the word of that quotient. -/
theorem field_top_eq_ofNat (v : Word) {lo : Nat} (hlo : lo ≤ 64) :
    field v 63 lo = BitVec.ofNat 64 (v.toNat / 2 ^ lo) := by
  rw [← toNat_field_top v hlo, BitVec.ofNat_toNat, BitVec.setWidth_eq]

/-! ### Words joined from slices -/

/-- Three adjacent slices that cover a word make it. -/
theorem append_slices {a b c : Nat} (w : BitVec (a + b + c)) :
    w.extractLsb' (c + b) a ++ w.extractLsb' c b ++ w.extractLsb' 0 c = w := by
  rw [BitVec.extractLsb'_append_extractLsb'_eq_extractLsb' rfl, BitVec.extractLsb'_append_extractLsb']

/-- The union of words of three slices is the words' union slice by slice. -/
theorem or_append_slices {a b c : Nat} (x x' : BitVec a) (y y' : BitVec b) (z z' : BitVec c) :
    (x ++ y ++ z) ||| (x' ++ y' ++ z') = (x ||| x') ++ (y ||| y') ++ (z ||| z') := by
  rw [BitVec.or_append, BitVec.or_append]

/-- A word cut to `k` bits and moved up by `b` stands above `b` zeros. -/
theorem setWidth_shiftLeft_eq_append {n : Nat} (x : BitVec n) (k b : Nat) :
    x.setWidth (k + b) <<< b = x.setWidth k ++ 0#b := by
  have hjoin := BitVec.setWidth_append_eq_shiftLeft_setWidth_or (w'' := k + b) (b := x) (b' := 0#b)
  rw [BitVec.setWidth_zero, BitVec.or_zero, BitVec.setWidth_append_of_eq rfl, BitVec.setWidth_eq] at hjoin
  exact hjoin.symm

/-! ### The three expansions (R143, R146, R149) -/

/-- Scattering over the msb mask leaves bits 15:12 clear. -/
theorem pdepWord_maskMsb (v : Word) :
    pdepWord v Config.maskMsb = (v.extractLsb' 12 48 ++ 0#4 ++ v.extractLsb' 0 12 : BitVec (48 + 4 + 12)) := by
  have hlow : (pdepWord v Config.maskMsb).extractLsb' 0 12 = v.extractLsb' 0 12 :=
    extractLsb'_pdepWord v (m := Config.maskMsb) (lo := 0) (by decide)
  have hclear : (pdepWord v Config.maskMsb).extractLsb' 12 4 = 0#4 :=
    extractLsb'_pdepWord_of_clear v (by decide)
  have hhigh : (pdepWord v Config.maskMsb).extractLsb' 16 48 = v.extractLsb' 12 48 :=
    extractLsb'_pdepWord v (m := Config.maskMsb) (lo := 16) (by decide)
  rw [← hlow, ← hclear, ← hhigh]
  exact (append_slices (a := 48) (b := 4) (c := 12) (pdepWord v Config.maskMsb)).symm

/-- Scattering over the lsb mask leaves bits 63:60 clear. -/
theorem pdepWord_maskLsb (v : Word) :
    pdepWord v Config.maskLsb = (0#4 ++ v.extractLsb' 0 60 : BitVec (4 + 60)) := by
  have hlow : (pdepWord v Config.maskLsb).extractLsb' 0 60 = v.extractLsb' 0 60 :=
    extractLsb'_pdepWord v (m := Config.maskLsb) (lo := 0) (by decide)
  have hclear : (pdepWord v Config.maskLsb).extractLsb' 60 4 = 0#4 :=
    extractLsb'_pdepWord_of_clear v (by decide)
  rw [← hlow, ← hclear]
  exact (BitVec.extractLsb'_append_extractLsb' (w := 4) (len := 60) (x := pdepWord v Config.maskLsb)).symm

/-- Scattering over the lexical mask leaves bits 63:62 and 1:0 clear. -/
theorem pdepWord_maskLex (v : Word) :
    pdepWord v Config.maskLex = (0#2 ++ v.extractLsb' 0 60 ++ 0#2 : BitVec (2 + 60 + 2)) := by
  have hlow : (pdepWord v Config.maskLex).extractLsb' 0 2 = 0#2 :=
    extractLsb'_pdepWord_of_clear v (by decide)
  have hmiddle : (pdepWord v Config.maskLex).extractLsb' 2 60 = v.extractLsb' 0 60 :=
    extractLsb'_pdepWord v (m := Config.maskLex) (lo := 2) (by decide)
  have hhigh : (pdepWord v Config.maskLex).extractLsb' 62 2 = 0#2 :=
    extractLsb'_pdepWord_of_clear v (by decide)
  have hword := append_slices (a := 2) (b := 60) (c := 2) (pdepWord v Config.maskLex)
  rw [hlow, hmiddle, hhigh] at hword
  exact hword.symm

/-- Scattering over the bits the lexical mask leaves out fills bits 63:62 and 1:0 and no other. -/
theorem pdepWord_not_maskLex (v : Word) :
    pdepWord v (~~~Config.maskLex) = (v.extractLsb' 2 2 ++ 0#60 ++ v.extractLsb' 0 2 : BitVec (2 + 60 + 2)) := by
  have hlow : (pdepWord v (~~~Config.maskLex)).extractLsb' 0 2 = v.extractLsb' 0 2 :=
    extractLsb'_pdepWord v (m := ~~~Config.maskLex) (lo := 0) (by decide)
  have hclear : (pdepWord v (~~~Config.maskLex)).extractLsb' 2 60 = 0#60 :=
    extractLsb'_pdepWord_of_clear v (by decide)
  have hhigh : (pdepWord v (~~~Config.maskLex)).extractLsb' 62 2 = v.extractLsb' 2 2 :=
    extractLsb'_pdepWord v (m := ~~~Config.maskLex) (lo := 62) (by decide)
  have hword := append_slices (a := 2) (b := 60) (c := 2) (pdepWord v (~~~Config.maskLex))
  rw [hlow, hclear, hhigh] at hword
  exact hword.symm

/-- The nibble of EXPMSB fills the bits the msb mask leaves clear. -/
theorem expandMsb_eq (half f : Word) :
    pdepWord half Config.maskMsb ||| (field f 3 0 <<< 12) =
      (half.extractLsb' 12 48 ++ f.extractLsb' 0 4 ++ half.extractLsb' 0 12 : BitVec (48 + 4 + 12)) := by
  have hnibble : field f 3 0 <<< 12 = (0#48 ++ f.extractLsb' 0 4 ++ 0#12 : BitVec (48 + 4 + 12)) := by
    have hwide : (f.extractLsb' 0 4).setWidth 52 = (0#48 ++ f.extractLsb' 0 4 : BitVec (48 + 4)) :=
      BitVec.setWidth_eq_append (by decide)
    rw [← hwide]
    exact setWidth_shiftLeft_eq_append (f.extractLsb' 0 4) 52 12
  rw [pdepWord_maskMsb, hnibble]
  refine (or_append_slices _ _ _ _ _ _).trans ?_
  rw [BitVec.or_zero, BitVec.zero_or, BitVec.or_zero]

/-- The nibble of EXPLSB fills the bits the lsb mask leaves clear. -/
theorem expandLsb_eq (half f : Word) :
    pdepWord half Config.maskLsb ||| (field f 3 0 <<< 60) =
      (f.extractLsb' 0 4 ++ half.extractLsb' 0 60 : BitVec (4 + 60)) := by
  have hnibble : field f 3 0 <<< 60 = (f.extractLsb' 0 4 ++ 0#60 : BitVec (4 + 60)) :=
    setWidth_shiftLeft_eq_append (f.extractLsb' 0 4) 4 60
  rw [pdepWord_maskLsb, hnibble]
  refine BitVec.or_append.trans ?_
  rw [BitVec.zero_or, BitVec.or_zero]

/-- The field of EXPLEX fills the bits the lexical mask leaves clear. -/
theorem expandLex_eq (half f : Word) :
    pdepWord half Config.maskLex ||| pdepWord (field f 3 0) (~~~Config.maskLex) =
      (f.extractLsb' 2 2 ++ half.extractLsb' 0 60 ++ f.extractLsb' 0 2 : BitVec (2 + 60 + 2)) := by
  rw [pdepWord_maskLex, pdepWord_not_maskLex, extractLsb'_field f (by decide) (by decide),
    extractLsb'_field f (by decide) (by decide)]
  refine (or_append_slices _ _ _ _ _ _).trans ?_
  rw [BitVec.zero_or, BitVec.or_zero, BitVec.zero_or]

/-- EXPMSB writes its operand's low 60 bits opened at bits 15:12 for a nibble. -/
theorem exec_expmsb (rd ra rb : Reg) (s : State) :
    exec (.expmsb rd ra rb) s = .next (s.writeX rd
      ((s.readX ra).extractLsb' 12 48 ++ (s.readX rb).extractLsb' 0 4 ++ (s.readX ra).extractLsb' 0 12 :
        BitVec (48 + 4 + 12))) := by
  rw [← expandMsb_eq]
  rfl

/-- EXPLSB writes a nibble above its operand's low 60 bits. -/
theorem exec_explsb (rd ra rb : Reg) (s : State) :
    exec (.explsb rd ra rb) s = .next (s.writeX rd
      ((s.readX rb).extractLsb' 0 4 ++ (s.readX ra).extractLsb' 0 60 : BitVec (4 + 60))) := by
  rw [← expandLsb_eq]
  rfl

/-- EXPLEX writes its operand's low 60 bits between the two halves of a nibble. -/
theorem exec_explex (rd ra rb : Reg) (s : State) :
    exec (.explex rd ra rb) s = .next (s.writeX rd
      ((s.readX rb).extractLsb' 2 2 ++ (s.readX ra).extractLsb' 0 60 ++ (s.readX rb).extractLsb' 0 2 :
        BitVec (2 + 60 + 2))) := by
  rw [← expandLex_eq]
  rfl

/-- Settles O50: the three rows decode, and each command writes one register. -/
theorem expandCommands : Obligations.ExpandCommands := by
  intro rd ra rb s
  exact ⟨decode_packFields .expmsb 0 0 rb ra rd (Laws.EncodedRow.expmsb rd ra rb rfl),
    decode_packFields .explsb 0 0 rb ra rd (Laws.EncodedRow.explsb rd ra rb rfl),
    decode_packFields .explex 0 0 rb ra rd (Laws.EncodedRow.explex rd ra rb rfl),
    ⟨_, exec_expmsb rd ra rb s, writeX_writesOnlyX s rd _⟩,
    ⟨_, exec_explsb rd ra rb s, writeX_writesOnlyX s rd _⟩,
    ⟨_, exec_explex rd ra rb s, writeX_writesOnlyX s rd _⟩⟩

/-! ### The field accessors (R151 to R154) -/

/-- The version field as a number. -/
theorem versionField_eq_ofNat (v : Word) : field v 15 12 = BitVec.ofNat 64 (v.toNat / 2 ^ 12 % 16) :=
  field_eq_ofNat v (by decide)

/-- GETVER writes bits 15:12. -/
theorem exec_getver (rd ra : Reg) (s : State) :
    exec (.getver rd ra) s = .next (s.writeX rd (BitVec.ofNat 64 ((s.readX ra).toNat / 2 ^ 12 % 16))) := by
  rw [← versionField_eq_ofNat]
  rfl

/-- GETVAR writes bits 63:62. -/
theorem exec_getvar (rd ra : Reg) (s : State) :
    exec (.getvar rd ra) s = .next (s.writeX rd (BitVec.ofNat 64 ((s.readX ra).toNat / 2 ^ 62))) := by
  rw [← field_top_eq_ofNat _ (by decide)]
  rfl

/-- The lexical variant field as a number: bits 63:62 above bits 1:0. -/
theorem lexicalField_eq_ofNat (v : Word) :
    (field v 63 62 <<< 2) ||| field v 1 0 = BitVec.ofNat 64 (4 * (v.toNat / 2 ^ 62) + v.toNat % 4) := by
  have hupper : field v 63 62 <<< 2 = BitVec.ofNat 64 ((v.toNat / 2 ^ 62) <<< 2) := by
    rw [← toNat_field_top v (by decide)]
    rfl
  have hlower : field v 1 0 = BitVec.ofNat 64 (v.toNat % 4) := by
    rw [field_eq_ofNat v (by decide), pow_zero, Nat.div_one]
    rfl
  have hlt : v.toNat % 4 < 2 ^ 2 := Nat.mod_lt _ (by decide)
  rw [hupper, hlower, ← BitVec.ofNat_or, ← Nat.shiftLeft_add_eq_or_of_lt hlt, Nat.shiftLeft_eq, Nat.mul_comm]

/-- GETVARLEX writes bits 63:62 above bits 1:0. -/
theorem exec_getvarlex (rd ra : Reg) (s : State) :
    exec (.getvarlex rd ra) s = .next (s.writeX rd
      (BitVec.ofNat 64 (4 * ((s.readX ra).toNat / 2 ^ 62) + (s.readX ra).toNat % 4))) := by
  rw [← lexicalField_eq_ofNat]
  rfl

/-- GETVARN writes bits 63:60. -/
theorem exec_getvarn (rd ra : Reg) (s : State) :
    exec (.getvarn rd ra) s = .next (s.writeX rd (BitVec.ofNat 64 ((s.readX ra).toNat / 2 ^ 60))) := by
  rw [← field_top_eq_ofNat _ (by decide)]
  rfl

/-- Settles O51: the four rows decode, and each command writes one register. -/
theorem fieldAccessors : Obligations.FieldAccessors := by
  intro rd ra s
  exact ⟨decode_packFields .getver 0 0 0 ra rd (Laws.EncodedRow.getver rd ra rfl),
    decode_packFields .getvar 0 0 0 ra rd (Laws.EncodedRow.getvar rd ra rfl),
    decode_packFields .getvarlex 0 0 0 ra rd (Laws.EncodedRow.getvarlex rd ra rfl),
    decode_packFields .getvarn 0 0 0 ra rd (Laws.EncodedRow.getvarn rd ra rfl),
    ⟨_, exec_getver rd ra s, writeX_writesOnlyX s rd _⟩,
    ⟨_, exec_getvar rd ra s, writeX_writesOnlyX s rd _⟩,
    ⟨_, exec_getvarlex rd ra s, writeX_writesOnlyX s rd _⟩,
    ⟨_, exec_getvarn rd ra s, writeX_writesOnlyX s rd _⟩⟩

end Sys2Proof.Machine
end

section
/-! NOP, and the CMD values with its opcode that are not NOP (44_control.md rule R170). -/

namespace Sys2Proof.Machine

/-! ### Decoding opcode 0x00 (R75, R77) -/

/-- The opcode byte of a multiple of 256 is that of the NOP row. -/
theorem ofCode_nop {w : Word} (hop : w.toNat % 256 = 0) : Opcode.ofCode (w.extractLsb' 0 8) = some .nop := by
  have hbyte : w.extractLsb' 0 8 = Opcode.nop.code := BitVec.eq_of_toNat_eq (by simpa [Opcode.code] using hop)
  rw [hbyte, ofCode_code]

/-- The only word that fits the NOP row is 0: the row fixes every bit. -/
theorem fits_nop_iff (c : CommandWord) : c &&& Opcode.nop.mask = Opcode.nop.matchWord ↔ c = 0#32 := by
  have hmask : Opcode.nop.mask = BitVec.allOnes 32 := by decide
  rw [hmask, BitVec.and_allOnes]
  rfl

/-- A word is 0 when both its halves are. -/
theorem eq_zero_of_halves {w : Word} (hhigh : w.extractLsb' 32 32 = 0#32) (hlow : w.extractLsb' 0 32 = 0#32) :
    w = 0 := by
  have hjoin : w.extractLsb' 32 32 ++ w.extractLsb' 0 32 = w := BitVec.extractLsb'_append_extractLsb'
  rw [← hjoin, hhigh, hlow]
  rfl

/-- Opcode 0x00 with any other bit set is a reserved field (R170): the high word refuses it, or the NOP row does. -/
theorem decode_opcode_nop {w : Word} (hne : w ≠ 0) (hop : w.toNat % 256 = 0) : decode w = .error .reservedField := by
  simp only [decode, ofCode_nop hop]
  by_cases hhigh : w.extractLsb' 32 32 = 0#32
  · have hlow : w.extractLsb' 0 32 ≠ 0#32 := fun h => hne (eq_zero_of_halves hhigh h)
    rw [if_neg (not_not_intro hhigh), if_pos (mt (fits_nop_iff _).mp hlow)]
  · rw [if_pos hhigh]

/-! ### A CMD write that does not decode (R77, R182) -/

/-- With ERR = 0, a CMD write of a value that does not decode enters that error and completes. -/
theorem step_cmdWrite_decodeError {s : State} {h : Nat} {w : Word} {rest : List PortEvent} {c : Cause}
    (hp : s.pending = cmdWrite h w :: rest) (herr : s.status.err = false) (hd : decode w = .error c) :
    ∃ t, step s = .next t ∧ ErrorEntered c w s t ∧ PortServed rest h .done s t := by
  have hsubmit : submitCommand w { s with pending := rest } =
      .next (raiseBlockError c w { s with pending := rest }) := by simp [submitCommand, herr, hd]
  obtain ⟨hstep, hserved⟩ := step_memWrite_served (slot := .cmd) hp hsubmit
  obtain ⟨hentered, -⟩ := raiseBlockError_entered c w { s with pending := rest }
  exact ⟨_, hstep, hentered, hserved⟩

/-- Settles O58: the row of NOP, the command that leaves its state, and the words the row refuses. -/
theorem nopCommand : Obligations.NopCommand := by
  refine ⟨?_, fun s => ?_, fun s h w rest hp herr hne hop => ?_⟩
  · exact decode_packFields .nop 0 0 0 0 0 (Laws.EncodedRow.nop rfl)
  · exact ⟨s, rfl, ⟨fun _ => rfl, fun _ => rfl, rfl, rfl, rfl⟩, rfl, rfl⟩
  · exact step_cmdWrite_decodeError hp herr (decode_opcode_nop hne hop)

end Sys2Proof.Machine
end

section
/-! What a CMD value decodes to: a command exactly from that command's own value, and otherwise the error of an unassigned
opcode or of a reserved field (30_encoding.md rules R74 to R77). -/

namespace Sys2Proof.Machine

/-! ### From a command to its value and back -/

/-- The laws of the single commands under Laws/PerInstr, as one: a well-formed command's word fits its own row (R75). -/
theorem encode_fits (i : Instr) : Laws.EncodedRow.Statement i :=
  match i with
  | .nop => Laws.EncodedRow.nop
  | .magic rd ra => Laws.EncodedRow.magic rd ra
  | .fdivn rd ra rb => Laws.EncodedRow.fdivn rd ra rb
  | .fmodn rd ra rb rc => Laws.EncodedRow.fmodn rd ra rb rc
  | .fdivw rd ra rb => Laws.EncodedRow.fdivw rd ra rb
  | .fmodw rd ra rb rc => Laws.EncodedRow.fmodw rd ra rb rc
  | .ldivmod rd rb rc imm8 => Laws.EncodedRow.ldivmod rd rb rc imm8
  | .lmuladd rd ra rb => Laws.EncodedRow.lmuladd rd ra rb
  | .madd rd ra rb rc => Laws.EncodedRow.madd rd ra rb rc
  | .lpack ra rb => Laws.EncodedRow.lpack ra rb
  | .lhi rd => Laws.EncodedRow.lhi rd
  | .llo rd => Laws.EncodedRow.llo rd
  | .cmpmsb rd ra => Laws.EncodedRow.cmpmsb rd ra
  | .expmsb rd ra rb => Laws.EncodedRow.expmsb rd ra rb
  | .cmplsb rd ra => Laws.EncodedRow.cmplsb rd ra
  | .explsb rd ra rb => Laws.EncodedRow.explsb rd ra rb
  | .cmplex rd ra => Laws.EncodedRow.cmplex rd ra
  | .explex rd ra rb => Laws.EncodedRow.explex rd ra rb
  | .getver rd ra => Laws.EncodedRow.getver rd ra
  | .getvar rd ra => Laws.EncodedRow.getvar rd ra
  | .getvarlex rd ra => Laws.EncodedRow.getvarlex rd ra
  | .getvarn rd ra => Laws.EncodedRow.getvarn rd ra
  | .pext rd ra rb => Laws.EncodedRow.pext rd ra rb
  | .pdep rd ra rb => Laws.EncodedRow.pdep rd ra rb

/-- A command's word holds six fields from which its row builds the command again (R71, R75). -/
theorem exists_fields (i : Instr) :
    ∃ imm8 rc rb ra rd,
      encode i = packFields imm8 rc rb ra rd i.opcode.code ∧ i.opcode.build rd ra rb rc imm8 = i := by
  cases i <;> exact ⟨_, _, _, _, _, rfl, rfl⟩

/-- A well-formed command's value decodes to it. -/
theorem decode_cmdValue {i : Instr} (hwf : i.wellFormed = true) : decode (cmdValue i) = .command i := by
  obtain ⟨imm8, rc, rb, ra, rd, hencode, hbuild⟩ := exists_fields i
  have hfits := encode_fits i hwf
  rw [hencode] at hfits
  rw [cmdValue, hencode, decode_packFields i.opcode imm8 rc rb ra rd hfits, hbuild]

/-- No two well-formed commands have one value (R74). -/
theorem cmdValue_inj {i j : Instr} (hi : i.wellFormed = true) (hj : j.wellFormed = true) (h : cmdValue i = cmdValue j) :
    i = j := by
  have hdecoded := decode_cmdValue hi
  rw [h, decode_cmdValue hj] at hdecoded
  cases hdecoded
  rfl

/-- A value that decodes to an error is no well-formed command's. -/
theorem cmdValue_ne_of_decode_error {w : Word} {c : Cause} (hd : decode w = .error c) {i : Instr}
    (hwf : i.wellFormed = true) : cmdValue i ≠ w := by
  rintro rfl
  cases hd.symm.trans (decode_cmdValue hwf)

/-- What a row builds from fields that fit it is well-formed and encodes to those fields: the ones it drops are zero. -/
theorem build_of_fits {op : Opcode} {imm8 : BitVec 8} {rc rb ra rd : Reg}
    (hfits : packFields imm8 rc rb ra rd op.code &&& op.mask = op.matchWord) :
    (op.build rd ra rb rc imm8).wellFormed = true ∧
      encode (op.build rd ra rb rc imm8) = packFields imm8 rc rb ra rd op.code := by
  have hones8 : imm8 &&& 0xFF = imm8 := BitVec.and_allOnes
  have hones4 : ∀ r : Reg, r &&& 0xF = r := fun _ => BitVec.and_allOnes
  obtain ⟨himm, hrc, hrb, hra, hrd⟩ := (fits_iff op imm8 rc rb ra rd).mp hfits
  cases op <;> simp only [Opcode.fixedFields, hones8, hones4] at himm hrc hrb hra hrd
  case ldivmod => exact ⟨(immediateLegal_iff imm8).mpr himm, by rw [hra]; rfl⟩
  all_goals exact ⟨rfl, by simp only [encode, Opcode.build, Instr.opcode, himm, hrc, hrb, hra, hrd]⟩

/-! ### Every value (R76, R77) -/

/-- No row of R75 has the opcode byte exactly when it lies in one of R76's ranges. -/
theorem ofCode_eq_none_iff (b : BitVec 8) :
    Opcode.ofCode b = none ↔
      (0x01 ≤ b.toNat ∧ b.toNat ≤ 0x0F) ∨ (0x15 ≤ b.toNat ∧ b.toNat ≤ 0x1F) ∨ (0x26 ≤ b.toNat ∧ b.toNat ≤ 0x2F) ∨
        (0x3C ≤ b.toNat ∧ b.toNat ≤ 0xFF) := by
  revert b
  decide

theorem unassignedOpcode_iff (w : Word) : UnassignedOpcode w ↔ Opcode.ofCode (w.extractLsb' 0 8) = none := by
  have hbyte : (w.extractLsb' 0 8).toNat = w.toNat % 256 := by simp
  rw [ofCode_eq_none_iff, hbyte, UnassignedOpcode]

/-- The three ends of decoding, in R77's order. -/
theorem decode_cases (w : Word) :
    (UnassignedOpcode w ∧ decode w = .error .illegalOpcode) ∨
      (¬ UnassignedOpcode w ∧ decode w = .error .reservedField) ∨
      (¬ UnassignedOpcode w ∧ ∃ i : Instr, i.wellFormed = true ∧ cmdValue i = w) := by
  rw [unassignedOpcode_iff]
  cases hop : Opcode.ofCode (w.extractLsb' 0 8) with
  | none => exact .inl ⟨rfl, by simp only [decode, hop]⟩
  | some op =>
    right
    by_cases hhigh : w.extractLsb' 32 32 = 0#32
    · have hpacked := eq_packFields w hhigh
      rw [← code_of_ofCode hop] at hpacked
      by_cases hfits : w.extractLsb' 0 32 &&& op.mask = op.matchWord
      · right
        rw [hpacked, packFields_low] at hfits
        obtain ⟨hwf, hencode⟩ := build_of_fits hfits
        exact ⟨nofun, _, hwf, by rw [cmdValue, hencode, ← hpacked]⟩
      · exact .inl ⟨nofun, by simp only [decode, hop, if_neg (not_not_intro hhigh), if_pos hfits]⟩
    · exact .inl ⟨nofun, by simp only [decode, hop, if_pos hhigh]⟩

end Sys2Proof.Machine
end

section
/-! BlockErrors at the port: which cause a CMD write records, that error entry is precise, and that error return lets
commands execute again (60_exceptions.md rules R181 to R185). -/

namespace Sys2Proof.Machine

/-! ### A CMD write that decodes -/

/-- With ERR = 0, a CMD write of a well-formed command's value executes the command and completes. -/
theorem step_cmdWrite_command {s : State} {h : Nat} {i : Instr} {rest : List PortEvent}
    (hp : s.pending = cmdWrite h (cmdValue i) :: rest) (herr : s.status.err = false) (hwf : i.wellFormed = true) :
    ∃ t, exec i { s with pending := rest } = .next t ∧ step s = .next (t.answer h .done) ∧
      PortServed rest h .done s (t.answer h .done) := by
  obtain ⟨t, hexec, -⟩ := exec_effect i { s with pending := rest }
  have hsubmit : submitCommand (cmdValue i) { s with pending := rest } = .next t := by
    simp [submitCommand, herr, decode_cmdValue hwf, hexec]
  exact ⟨t, hexec, step_memWrite_served (slot := .cmd) hp hsubmit⟩

/-! ### The error record after a command (R182) -/

/-- A command raises one of its own causes and does nothing else, or leaves ERR and CAUSE. -/
theorem exec_raises_or_keeps {i : Instr} {s t : State} (hexec : exec i s = .next t) :
    (∃ c ∈ ownCauses i, t = raiseBlockError c (cmdValue i) s) ∨
      (t.status.err = s.status.err ∧ t.status.cause = s.status.cause) := by
  cases effect_of_exec hexec with
  | raises c hc _ => exact .inl ⟨c, hc, rfl⟩
  | nothing => exact .inr ⟨rfl, rfl⟩
  | writes rd v => exact .inr (by simp)
  | divides l rd v => exact .inr (by simp)
  | multiplies l rd c => exact .inr (by simp)
  | packs l => exact .inr ⟨rfl, rfl⟩

/-- Settles O12: the value enters its decode error, or its command raises a cause of its own under the same value. -/
theorem errorEntryIsPrecise : Obligations.ErrorEntryIsPrecise := by
  intro s h w rest hp herr
  have hdecodeError : ∀ c, decode w = .error c →
      ∃ t, step s = .next t ∧ PortServed rest h .done s t ∧ (t.status.err = true → ∃ c, ErrorEntered c w s t) := by
    intro c hd
    obtain ⟨t, hstep, hentered, hserved⟩ := step_cmdWrite_decodeError hp herr hd
    exact ⟨t, hstep, hserved, fun _ => ⟨c, hentered⟩⟩
  rcases decode_cases w with ⟨-, hd⟩ | ⟨-, hd⟩ | ⟨-, i, hwf, rfl⟩
  · exact hdecodeError _ hd
  · exact hdecodeError _ hd
  · obtain ⟨t, hexec, hstep, hserved⟩ := step_cmdWrite_command hp herr hwf
    refine ⟨_, hstep, hserved, fun hset => ?_⟩
    rcases exec_raises_or_keeps hexec with ⟨c, -, rfl⟩ | ⟨hkept, -⟩
    · obtain ⟨hentered, -⟩ := raiseBlockError_entered c (cmdValue i) { s with pending := rest }
      exact ⟨c, hentered⟩
    · rw [answer_status, hkept, herr] at hset
      cases hset

/-! ### The causes (R181, R183) -/

/-- CAUSE after MAGIC from a state with no cause recorded (R101). -/
theorem execMagic_cause {rd ra : Reg} {s t : State} (hexec : execMagic rd ra s = .next t)
    (hnone : s.status.cause = none) :
    t.status.cause =
      if (s.readX ra).toNat % 2 ^ 32 = 0 then some .divisorZero
      else if (s.readX ra).toNat % 2 ^ 32 = 1 then some .magicRange
      else none := by
  split_ifs with hzero hone
  · cases (execMagic_zero rd ra s hzero).symm.trans hexec
    rfl
  · cases (execMagic_one rd ra s hone).symm.trans hexec
    rfl
  · cases (execMagic_of_two_le rd ra s (by omega)).symm.trans hexec
    rw [writeX_status, hnone]

/-- The limb a legal immediate names is its number (R73). -/
theorem firstLimb_of_legal {imm8 : BitVec 8} (hlegal : immediateLegal imm8 = true) : firstLimb imm8 = imm8.toNat := by
  have hlt : imm8.toNat < 8 := of_decide_eq_true hlegal
  simp [firstLimb, Nat.mod_eq_of_lt hlt]

/-- CAUSE after LDIVMOD from a state with no cause recorded (R121). -/
theorem execLdivmod_cause {rd rb rc : Reg} {imm8 : BitVec 8} {s t : State} (hlegal : immediateLegal imm8 = true)
    (hexec : execLdivmod rd rb rc imm8 s = .next t) (hnone : s.status.cause = none) :
    t.status.cause = if s.ctrl.nl.toNat + 1 ≤ imm8.toNat then some .limbIndex else none := by
  rw [← firstLimb_of_legal hlegal]
  split_ifs with hpast
  · cases (execLdivmod_index rd rb rc imm8 s hpast).symm.trans hexec
    rfl
  · cases (execLdivmod_pass rd rb rc imm8 s (Nat.lt_of_not_le hpast)).symm.trans hexec
    rw [writeX_status, withLimbs_status, hnone]

/-- A command without causes of its own leaves CAUSE. -/
theorem exec_cause_of_ownCauses_nil {i : Instr} {s t : State} (hown : ownCauses i = []) (hexec : exec i s = .next t) :
    t.status.cause = s.status.cause := by
  rcases exec_raises_or_keeps hexec with ⟨c, hc, -⟩ | ⟨-, hkept⟩
  · rw [hown] at hc
    cases hc
  · exact hkept

/-- With ERR = 0 the invariant leaves no cause recorded. -/
theorem BlockInv.cause_eq_none {s : State} (hinv : BlockInv s) (herr : s.status.err = false) : s.status.cause = none := by
  obtain ⟨-, hrecord⟩ := hinv
  rw [ErrorRecordSound, if_neg (by simp [herr])] at hrecord
  obtain ⟨hnone, -⟩ := hrecord
  exact hnone

/-- Settles O13: decoding's three ends exclude each other, and a decoded command records what its own check finds. -/
theorem causeRecorded : Obligations.CauseRecorded := by
  intro s h w rest hinv hp herr
  have hnone := hinv.cause_eq_none herr
  rcases decode_cases w with ⟨hop, hd⟩ | ⟨hop, hd⟩ | ⟨hop, i, hwf, rfl⟩
  · obtain ⟨t, hstep, ⟨-, hcause, -⟩, -⟩ := step_cmdWrite_decodeError hp herr hd
    exact ⟨t, hstep, fun _ => hcause, fun ⟨hassigned, _⟩ => absurd hop hassigned,
      fun j hj hvalue => absurd hvalue (cmdValue_ne_of_decode_error hd hj)⟩
  · obtain ⟨t, hstep, ⟨-, hcause, -⟩, -⟩ := step_cmdWrite_decodeError hp herr hd
    exact ⟨t, hstep, fun hunassigned => absurd hunassigned hop, fun _ => hcause,
      fun j hj hvalue => absurd hvalue (cmdValue_ne_of_decode_error hd hj)⟩
  · obtain ⟨t, hexec, hstep, -⟩ := step_cmdWrite_command hp herr hwf
    refine ⟨_, hstep, fun hunassigned => absurd hunassigned hop, fun ⟨_, hother⟩ => absurd rfl (hother i hwf),
      fun j hj hvalue => ?_⟩
    obtain rfl := cmdValue_inj hj hwf hvalue
    cases j with
    | magic rd ra => exact (execMagic_cause hexec hnone :)
    | ldivmod rd rb rc imm8 => exact (execLdivmod_cause hwf hexec hnone :)
    | _ => exact (exec_cause_of_ownCauses_nil rfl hexec).trans hnone

/-! ### Error return (R185) -/

/-- Settles O23: the STATUS write clears the error record, so the CMD write behind it executes its command. -/
theorem errorReturnResumesCommands : Obligations.ErrorReturnResumesCommands := by
  intro s h k v i rest hp hbit hwf
  obtain ⟨hstep, hpending, -⟩ := step_memWrite_served (slot := .status) hp rfl
  have hrecord := writeStatus_errorRecord { s with pending := cmdWrite k (cmdValue i) :: rest } v
  rw [if_pos hbit] at hrecord
  obtain ⟨herr, hcause, hfaultcmd⟩ := hrecord
  obtain ⟨u, hexec, hnext, -⟩ := step_cmdWrite_command hpending herr hwf
  refine ⟨_, u, hstep, herr, hcause, hfaultcmd, readX_writeStatus _ v, readLimb_writeStatus _ v, writeStatus_ctrl _ v,
    fun hdrop => ?_, hexec, hnext⟩
  rw [answer_status, writeStatus_drop, if_neg (by omega)]

end Sys2Proof.Machine
end

section
/-! The issuer of an access: it gets the reply, and nothing else depends on it (60_exceptions.md rule R189). -/

namespace Sys2Proof.Machine

/-- An access leaves one state and gives one response, the same for every issuer, who is answered last. -/
theorem performAccess_issuer (a : Access) (s : State) :
    ∃ t r, PortKept s t ∧ ∀ h, performAccess { a with issuer := h } s = .next (t.answer h r) := by
  have hslot : ∀ h, admittedSlot { a with issuer := h } = admittedSlot a := fun _ => rfl
  simp only [performAccess, hslot]
  cases admittedSlot a with
  | none => exact ⟨s, .busError, ⟨rfl, rfl⟩, fun _ => rfl⟩
  | some slot =>
    cases a.kind with
    | read n => exact ⟨s, _, ⟨rfl, rfl⟩, fun _ => rfl⟩
    | write lanes =>
      obtain ⟨t, ht, hkept⟩ := writeSlot_next slot (wordOfLanes lanes) s
      exact ⟨t, .done, hkept, fun h => congrArg (thenAnswer h .done) ht⟩

/-- Settles O27: with the event taken the two states are one, and the access answers either issuer from one state. -/
theorem issuerDoesNotMatter : Obligations.IssuerDoesNotMatter := by
  intro s u a h rest hp hu
  have hstep : step s = performAccess a { s with pending := rest } := step_event hp
  have hstep' : step u = performAccess { a with issuer := h } { s with pending := rest } := by
    rw [hu, step_event rfl, performEvent]
  obtain ⟨t, r, ⟨hpending, hreplies⟩, hanswer⟩ := performAccess_issuer a { s with pending := rest }
  have hserved : ∀ k, t.replies ++ [⟨k, r⟩] = s.replies ++ [⟨k, r⟩] := fun k => congrArg (· ++ _) hreplies
  refine ⟨t.answer a.issuer r, t.answer h r, r, hstep.trans (hanswer a.issuer), hstep'.trans (hanswer h),
    ⟨fun _ => rfl, fun _ => rfl, rfl, rfl, rfl⟩, ⟨hpending, hserved a.issuer⟩, hpending, ?_⟩
  rw [hu]
  exact hserved h

end Sys2Proof.Machine
end

section
/-! Decoding and encoding as inverses: the round trips of 30_encoding.md rule R74, and when decoding ends in which error
(rules R76, R77). -/

namespace Sys2Proof.Machine

/-- Settles O6: the law of the fields of a well-formed command, `decode_cmdValue`. -/
theorem decodeOfEncode : Obligations.DecodeOfEncode := fun _ hwf => decode_cmdValue hwf

/-- Settles O7: the first two ends of decoding answer an error, and the third names the one command of the value. -/
theorem encodeOfDecode : Obligations.EncodeOfDecode := by
  intro w i hd
  rcases decode_cases w with ⟨-, herror⟩ | ⟨-, herror⟩ | ⟨-, j, hwf, rfl⟩
  · cases hd.symm.trans herror
  · cases hd.symm.trans herror
  · cases hd.symm.trans (decode_cmdValue hwf)
    exact ⟨hwf, rfl⟩

/-- Settles O8: the three ends of decoding exclude each other. -/
theorem decodeErrorsExactly : Obligations.DecodeErrorsExactly := by
  intro w
  rcases decode_cases w with ⟨hop, hd⟩ | ⟨hop, hd⟩ | ⟨hop, i, hwf, rfl⟩
  · simp [hd, hop]
  · simp only [hd, hop]
    exact ⟨by simp, by simpa using fun i hwf => cmdValue_ne_of_decode_error hd hwf, by simp⟩
  · have hown : ¬ ∀ j : Instr, j.wellFormed = true → cmdValue j ≠ cmdValue i := fun h => h i hwf rfl
    simp [decode_cmdValue hwf, hop, hown]

/-- Settles O9: each word is evaluated. -/
theorem decodedWords : Obligations.DecodedWords := by
  unfold Obligations.DecodedWords
  decide

end Sys2Proof.Machine
end

section
/-! The invariant of the block (10_state.md rules R24 to R26; 60_exceptions.md rules R181, R182): reset meets it, and each
layer of a step keeps it, from the command or register write up to the event at the port. -/

namespace Sys2Proof.Machine

/-- Settles O3: the reset registers are concrete. -/
theorem invariantAtReset : Obligations.InvariantAtReset := ⟨⟨by decide, by decide⟩, rfl, rfl⟩

/-- The invariant speaks of CTRL.LW and the error record alone. -/
theorem BlockInv.of_same {s t : State} (hinv : BlockInv s) (hlw : t.ctrl.lw = s.ctrl.lw)
    (herr : t.status.err = s.status.err) (hcause : t.status.cause = s.status.cause) (hfault : t.faultcmd = s.faultcmd) :
    BlockInv t := by
  simpa only [BlockInv, LegalCtrl, ErrorRecordSound, hlw, herr, hcause, hfault] using hinv

theorem BlockInv.writeX {s : State} (hinv : BlockInv s) (rd : Reg) (v : Word) : BlockInv (s.writeX rd v) :=
  hinv.of_same (by rw [writeX_ctrl]) (by rw [writeX_status]) (by rw [writeX_status]) (writeX_faultcmd s rd v)

theorem BlockInv.withLimbs {s : State} (hinv : BlockInv s) (l : Vector Word 8) : BlockInv (s.withLimbs l) :=
  hinv.of_same rfl rfl rfl rfl

theorem BlockInv.noteCarry {s : State} (hinv : BlockInv s) (c : Word) : BlockInv (s.noteCarry c) :=
  hinv.of_same rfl rfl rfl rfl

theorem BlockInv.answer {s : State} (hinv : BlockInv s) (h : Nat) (r : Response) : BlockInv (s.answer h r) :=
  hinv.of_same rfl rfl rfl rfl

/-- Error entry keeps the invariant when the value it captures can record its cause. -/
theorem BlockInv.raise {s : State} (hinv : BlockInv s) {c : Cause} {w : Word} (hrecord : CanRecord w c) :
    BlockInv (raiseBlockError c w s) :=
  ⟨hinv.1, c, rfl, hrecord⟩

/-- A well-formed command's value can record the command's own causes (R181). -/
theorem canRecord_cmdValue {i : Instr} (hwf : i.wellFormed = true) {c : Cause} (hc : c ∈ ownCauses i) :
    CanRecord (cmdValue i) c := by
  simpa only [CanRecord, decode_cmdValue hwf] using hc

/-- A value that decodes to an error can record that error. -/
theorem canRecord_of_decode_error {w : Word} {c : Cause} (hd : decode w = .error c) : CanRecord w c := by
  simp only [CanRecord, hd]

/-- A well-formed command keeps the invariant: it enters one of its own errors or leaves the error record. -/
theorem exec_keeps_blockInv {i : Instr} {s t : State} (hwf : i.wellFormed = true) (hinv : BlockInv s)
    (hexec : exec i s = .next t) : BlockInv t := by
  cases effect_of_exec hexec with
  | nothing => exact hinv
  | writes rd v => exact hinv.writeX rd v
  | divides l rd v => exact (hinv.withLimbs l).writeX rd v
  | multiplies l rd c => exact ((hinv.withLimbs l).writeX rd c).noteCarry c
  | packs l => exact hinv.withLimbs l
  | raises c hc => exact hinv.raise (canRecord_cmdValue hwf hc)

/-- A CMD write keeps the invariant, whichever way it ends. -/
theorem submitCommand_keeps_blockInv {w : Word} {s t : State} (hinv : BlockInv s)
    (hsubmit : submitCommand w s = .next t) : BlockInv t := by
  rcases submitCommand_cases w s with ⟨-, h⟩ | ⟨-, c, hd, h⟩ | ⟨-, i, hd, h⟩ <;> rw [hsubmit] at h
  · cases h
    exact hinv.of_same rfl rfl rfl rfl
  · cases h
    exact hinv.raise (canRecord_of_decode_error hd)
  · obtain ⟨hwf, -⟩ := encodeOfDecode w i hd
    exact exec_keeps_blockInv hwf hinv h.symm

/-- A host write to CTRL leaves a legal width: the written one when it is legal, else the old one (R30). -/
theorem legalCtrl_writeCtrl {s : State} (hlegal : LegalCtrl s) (v : Word) : LegalCtrl (s.writeCtrl v) := by
  rw [LegalCtrl, writeCtrl_ctrl]
  by_cases hv : 1 ≤ v.toNat % 32 ∧ v.toNat % 32 ≤ 30
  · rwa [written_lw_of_legal s.ctrl hv]
  · rw [written_lw_of_illegal s.ctrl (by omega)]
    exact hlegal

/-- A host write to STATUS clears the error record as a whole or leaves it as a whole (R29). -/
theorem blockInv_writeStatus {s : State} (hinv : BlockInv s) (v : Word) : BlockInv (s.writeStatus v) := by
  have hctrl : (s.writeStatus v).ctrl.lw = s.ctrl.lw := by rw [writeStatus_ctrl]
  have hrecord := writeStatus_errorRecord s v
  split at hrecord <;> obtain ⟨herr, hcause, hfault⟩ := hrecord
  · refine ⟨by simpa only [LegalCtrl, hctrl] using hinv.1, ?_⟩
    rw [ErrorRecordSound, herr]
    exact ⟨hcause, hfault⟩
  · exact hinv.of_same hctrl herr hcause hfault

/-- A host write to any register keeps the invariant. -/
theorem writeSlot_keeps_blockInv {slot : Slot} {v : Word} {s t : State} (hinv : BlockInv s)
    (hwrite : writeSlot slot v s = .next t) : BlockInv t := by
  cases slot with
  | cmd => exact submitCommand_keeps_blockInv hinv hwrite
  | ctrl =>
    cases hwrite
    exact ⟨legalCtrl_writeCtrl hinv.1 v, hinv.2⟩
  | status =>
    cases hwrite
    exact blockInv_writeStatus hinv v
  | x r =>
    cases hwrite
    exact hinv.writeX r v
  | id | faultcmd | limb j =>
    cases hwrite
    exact hinv.of_same rfl rfl rfl rfl

/-- A host access keeps the invariant: what it does besides replying is a write to a register or nothing. -/
theorem performAccess_keeps_blockInv {a : Access} {s t : State} (hinv : BlockInv s)
    (haccess : performAccess a s = .next t) : BlockInv t := by
  unfold performAccess at haccess
  split at haccess
  · cases haccess
    exact hinv.answer _ _
  · next slot _ =>
    split at haccess
    · cases haccess
      exact hinv.answer _ _
    · next lanes _ =>
      obtain ⟨u, hwrite, -⟩ := writeSlot_next slot (wordOfLanes lanes) s
      rw [hwrite] at haccess
      cases haccess
      exact (writeSlot_keeps_blockInv hinv hwrite).answer _ _

/-- Settles O4: an idle step changes nothing, an access keeps the invariant, and reset meets it. -/
theorem stepKeepsInvariant : Obligations.StepKeepsInvariant := by
  intro s t hinv hstep
  cases hp : s.pending with
  | nil =>
    cases (step_idle hp).symm.trans hstep
    exact hinv
  | cons e rest =>
    have htaken : BlockInv { s with pending := rest } := hinv.of_same rfl rfl rfl rfl
    rw [step_event hp] at hstep
    cases e with
    | access a => exact performAccess_keeps_blockInv htaken hstep
    | reset inFlight =>
      cases hstep
      exact invariantAtReset.of_same rfl rfl rfl rfl

end Sys2Proof.Machine
end

section
/-! Steps and commands as wholes: every step answers a next state, and what each kind of command leaves unchanged
(10_state.md rule R25; 60_exceptions.md rule R184; 70_reset_and_hazards.md rules R200, R209). -/

namespace Sys2Proof.Machine

/-- Settles O2: the event is `performReset`, which keeps the port's own fields and nothing of the block's. -/
theorem resetEventClearsBlock : Obligations.ResetEventClearsBlock := fun _ _ _ hp =>
  ⟨_, step_event hp, ⟨fun _ => rfl, fun _ => rfl, rfl, rfl, rfl⟩, rfl, rfl⟩

/-- Settles O5: a port event is an access, which is always answered, or reset; without one the state stays. -/
theorem stepNeverStops : Obligations.StepNeverStops := by
  intro s
  cases hp : s.pending with
  | nil => exact ⟨s, step_idle hp, fun _ => rfl⟩
  | cons e rest =>
    rw [step_event hp]
    cases e with
    | access a =>
      obtain ⟨t, -, ht, -⟩ := performAccess_next a { s with pending := rest }
      exact ⟨t, ht, nofun⟩
    | reset inFlight => exact ⟨_, rfl, nofun⟩

/-- Settles O11: a value that decodes to a command is that well-formed command's own. -/
theorem stepRunsDecodedCommand : Obligations.StepRunsDecodedCommand := by
  intro s h w rest i hp herr hd
  obtain ⟨hwf, rfl⟩ := encodeOfDecode w i hd
  obtain ⟨t, hexec, hstep, -⟩ := step_cmdWrite_command hp herr hwf
  exact ⟨t, hexec, hstep⟩

/-- Settles O14: with ERR = 1 the CMD write is `discardCommand`. -/
theorem commandDiscardedWhileError : Obligations.CommandDiscardedWhileError := by
  intro s h w rest hp herr
  have hdiscard : submitCommand w { s with pending := rest } = .next (discardCommand { s with pending := rest }) :=
    if_pos herr
  obtain ⟨hstep, hserved⟩ := step_memWrite_served (slot := .cmd) hp hdiscard
  refine ⟨_, hstep, hserved, fun _ => rfl, fun _ => rfl, rfl, rfl, ?_⟩
  rw [answer_status, discardCommand_status, Status.withDrop, herr]

/-- Settles O15, by kind of command. -/
theorem commandFrame : Obligations.CommandFrame := by
  intro i s t hexec
  cases effect_of_exec hexec with
  | nothing => exact ⟨rfl, id, rfl, ⟨rfl, rfl⟩, fun _ => rfl, fun _ _ _ _ => rfl, fun _ _ => ⟨rfl, rfl, rfl⟩⟩
  | writes rd v => simp [PortKept, SameLimbs]
  | divides l rd v hop => simp [PortKept, hop]
  | multiplies l rd c hop => simp +contextual [PortKept, hop, Status.withCarry]
  | packs l hop => simp [PortKept, hop]
  | raises c hc hop =>
    exact ⟨rfl, id, rfl, ⟨rfl, rfl⟩, fun _ => rfl, fun _ _ _ _ => rfl,
      fun hmagic hldivmod => absurd hop (not_or_intro hmagic hldivmod)⟩

/-! ### No command reads a flag (R25) -/

/-- Two states with the same data registers, limbs and CTRL: all that a command reads. -/
structure SameOperands (s u : State) : Prop where
  xs : u.xs = s.xs
  limbs : u.limbs = s.limbs
  ctrl : u.ctrl = s.ctrl

theorem SameOperands.writeX {s u : State} (h : SameOperands s u) (rd : Reg) (v : Word) :
    SameOperands (s.writeX rd v) (u.writeX rd v) := by
  refine ⟨?_, by simp [h.limbs], by simp [h.ctrl]⟩
  unfold State.writeX
  split
  · exact h.xs
  · simp only [h.xs]

theorem SameOperands.withLimbs {s u : State} (h : SameOperands s u) (l : Vector Word 8) :
    SameOperands (s.withLimbs l) (u.withLimbs l) := ⟨h.xs, rfl, h.ctrl⟩

theorem SameOperands.noteCarry {s u : State} (h : SameOperands s u) (c : Word) :
    SameOperands (s.noteCarry c) (u.noteCarry c) := ⟨h.xs, h.limbs, h.ctrl⟩

/-- Executing a command on states that differ in the flags alone leaves states with the same operands: the two reads of
each operand are one, and MAGIC's and LDIVMOD's checks take the same branch. -/
theorem exec_sameOperands (i : Instr) (s : State) (flags : Status) (fault : Word) :
    ∃ t u, exec i s = .next t ∧ exec i { s with status := flags, faultcmd := fault } = .next u ∧ SameOperands t u := by
  have hsame : SameOperands s { s with status := flags, faultcmd := fault } := ⟨rfl, rfl, rfl⟩
  cases i with
  | nop => exact ⟨_, _, rfl, rfl, hsame⟩
  | magic rd ra =>
    rcases (by omega : (s.readX ra).toNat % 2 ^ 32 = 0 ∨ (s.readX ra).toNat % 2 ^ 32 = 1 ∨
      2 ≤ (s.readX ra).toNat % 2 ^ 32) with h | h | h
    · exact ⟨_, _, execMagic_zero rd ra s h, execMagic_zero rd ra _ h, rfl, rfl, rfl⟩
    · exact ⟨_, _, execMagic_one rd ra s h, execMagic_one rd ra _ h, rfl, rfl, rfl⟩
    · exact ⟨_, _, execMagic_of_two_le rd ra s h, execMagic_of_two_le rd ra _ h, hsame.writeX rd _⟩
  | ldivmod rd rb rc imm8 =>
    rcases Nat.lt_or_ge (firstLimb imm8) s.ctrl.limbCount with h | h
    · exact ⟨_, _, execLdivmod_pass rd rb rc imm8 s h, execLdivmod_pass rd rb rc imm8 _ h,
        (hsame.withLimbs _).writeX rd _⟩
    · exact ⟨_, _, execLdivmod_index rd rb rc imm8 s h, execLdivmod_index rd rb rc imm8 _ h, rfl, rfl, rfl⟩
  | lmuladd rd ra rb => exact ⟨_, _, rfl, rfl, ((hsame.withLimbs _).writeX rd _).noteCarry _⟩
  | lpack ra rb => exact ⟨_, _, rfl, rfl, hsame.withLimbs _⟩
  | _ => exact ⟨_, _, rfl, rfl, hsame.writeX _ _⟩

/-- Settles O16: reads of registers and limbs depend on the operands alone. -/
theorem noCommandReadsFlags : Obligations.NoCommandReadsFlags := by
  intro i s flags fault
  obtain ⟨t, u, ht, hu, hsame⟩ := exec_sameOperands i s flags fault
  exact ⟨t, u, ht, hu, readX_congr hsame.xs, readLimb_congr hsame.limbs, hsame.ctrl⟩

end Sys2Proof.Machine
end

section
/-! Assembler lines and commands (30_encoding.md rule R78). -/

namespace Sys2Proof.Machine

/-- The line of a well-formed command assembles to it; only LDIVMOD's limb number is read back through a check. -/
theorem assemble_disassemble {i : Instr} (hwf : i.wellFormed = true) : assemble (disassemble i) = some i := by
  cases i with
  | ldivmod rd rb rc imm8 =>
    have hlt : imm8.toNat < 8 := of_decide_eq_true hwf
    simp [assemble, disassemble, Instr.opcode, hlt]
  | _ => rfl

/-- A line that assembles is the line of the well-formed command it assembles to: its operands have the mnemonic's form. -/
theorem disassemble_of_assemble {l : AsmLine} {i : Instr} (h : assemble l = some i) :
    i.wellFormed = true ∧ disassemble i = l := by
  obtain ⟨m, operands⟩ := l
  cases m with
  | nop =>
    obtain ⟨hnil, hi⟩ := Option.ite_none_right_eq_some.mp h
    cases hi
    exact ⟨rfl, congrArg _ (Eq.symm hnil)⟩
  | ldivmod =>
    simp only [assemble] at h
    split at h
    · next xd xb xc n =>
      obtain ⟨hlt, hi⟩ := Option.ite_none_right_eq_some.mp h
      cases hi
      have hn : (BitVec.ofNat 8 n).toNat = n := Nat.mod_eq_of_lt (hlt.trans (by decide))
      exact ⟨decide_eq_true (hn.symm ▸ hlt), by rw [disassemble, hn]; rfl⟩
    · cases h
  | _ =>
    simp only [assemble] at h
    split at h <;> cases h
    exact ⟨rfl, rfl⟩

/-- Settles O10, one direction each. -/
theorem assembleInvertsDisassemble : Obligations.AssembleInvertsDisassemble :=
  ⟨fun _ hwf => assemble_disassemble hwf, fun _ _ h => disassemble_of_assemble h⟩

end Sys2Proof.Machine
end

section
/-! The host window: where each register stands, its byte lanes, and what host reads and writes of it do (20_memory.md
rules R53 to R58). -/

namespace Sys2Proof.Machine

/-! ### Offsets (R54) -/

theorem toNat_offset_x (r : Reg) : (Slot.x r).offset.toNat = 0x080 + 8 * r.toNat := by
  rw [Slot.offset, BitVec.toNat_ofNat]
  omega

theorem toNat_offset_limb (j : LimbIndex) : (Slot.limb j).offset.toNat = 0x100 + 8 * j.val := by
  rw [Slot.offset, BitVec.toNat_ofNat]
  omega

/-- A register found at an offset has that offset: by the ranges of `slotAt`, in turn. -/
theorem offset_of_slotAt {off : BitVec 9} {slot : Slot} (h : slotAt off = some slot) : off = slot.offset := by
  apply BitVec.eq_of_toNat_eq
  simp only [slotAt] at h
  split_ifs at h with haligned hid hctrl hstatus hcmd hfaultcmd hx hlimb <;> cases h
  · exact hid
  · exact hctrl
  · exact hstatus
  · exact hcmd
  · exact hfaultcmd
  · rw [toNat_offset_x, BitVec.toNat_ofNat]
    omega
  · rw [toNat_offset_limb, Fin.val_ofNat]
    omega

/-- Settles O18: `slotAt` and `Slot.offset` invert each other, and the offsets are the numbers of R54. -/
theorem windowMap : Obligations.WindowMap :=
  ⟨fun slot _ => ⟨offset_of_slotAt, fun h => h ▸ slotAt_offset slot⟩, rfl, rfl, rfl, rfl, rfl, toNat_offset_x,
    toNat_offset_limb⟩

/-! ### Byte lanes (R53) -/

/-- Lane i of a word is its slice from bit 8i up. -/
theorem lanesOfWord_getElem? (v : Word) {i : Nat} (hi : i < 8) : (lanesOfWord v)[i]? = some (v.extractLsb' (8 * i) 8) := by
  interval_cases i <;> rfl

/-- Bit 8i + b of the value of some lanes is bit b of lane i: each lane is a digit to base 2^8. -/
theorem testBit_lanesToNat (lanes : List Byte) {i b : Nat} (hb : b < 8) :
    (lanesToNat lanes).testBit (8 * i + b) = (lanes[i]?.map (·.getLsbD b)).getD false := by
  induction lanes generalizing i with
  | nil => simp [lanesToNat]
  | cons lane rest ih =>
    rw [lanesToNat, Nat.add_comm, show (256 : Nat) = 2 ^ 8 from rfl, Nat.testBit_two_pow_mul_add _ lane.isLt]
    cases i with
    | zero => simp [hb, BitVec.getLsbD]
    | succ i =>
      rw [if_neg (by omega), show 8 * (i + 1) + b - 8 = 8 * i + b by omega, ih, List.getElem?_cons_succ]

/-- Settles O25. -/
theorem littleEndianLanes : Obligations.LittleEndianLanes := by
  refine ⟨fun v i b hi hb => ⟨_, lanesOfWord_getElem? v hi, ?_⟩, fun lanes i b hlen hi hb => ?_⟩
  · rw [BitVec.getLsbD_extractLsb', decide_eq_true hb, Bool.true_and]
  · have hlane : lanes[i]? = some lanes[i] := List.getElem?_eq_getElem (hlen.symm ▸ hi)
    refine ⟨_, hlane, ?_⟩
    rw [wordOfLanes, BitVec.getLsbD_ofNat, testBit_lanesToNat lanes hb, hlane, decide_eq_true (by omega), Bool.true_and]
    rfl

/-! ### Host reads -/

/-- Two slices joined, as a number. -/
theorem toNat_append_eq_add {m n : Nat} (x : BitVec m) (y : BitVec n) : (x ++ y).toNat = x.toNat * 2 ^ n + y.toNat := by
  rw [BitVec.toNat_append, ← Nat.shiftLeft_add_eq_or_of_lt y.isLt, Nat.shiftLeft_eq]

/-- What a read of STATUS returns, as a number: its four fields in their places (R25). -/
theorem toNat_status_word (st : Status) :
    st.word.toNat = st.err.toNat + 2 * st.ovf.toNat + 4 * st.drop.toNat + 2 ^ 8 * st.causeCode.toNat := by
  simp only [Status.word, toNat_append_eq_add, BitVec.toNat_ofBool, BitVec.toNat_ofNat]
  omega

/-- Settles O17: the step replies with `readSlot`, and CTRL and STATUS read as their fields in their places. -/
theorem hostReadReturnsRegister : Obligations.HostReadReturnsRegister := by
  intro s h slot rest hp
  refine ⟨_, readSlot slot s, step_memRead hp, ⟨fun _ => rfl, fun _ => rfl, rfl, rfl, rfl⟩, ⟨rfl, rfl⟩, ?_⟩
  cases slot with
  | ctrl => exact toNat_ctrl_word s.ctrl
  | status =>
    refine (toNat_status_word s.status).trans ?_
    cases hcause : s.status.cause with
    | none => simp [Status.causeCode, hcause]
    | some c => cases c <;> simp [Status.causeCode, hcause, Cause.code]
  | _ => rfl

/-! ### Host writes (R55, R56) -/

/-- Settles O19: the step performs `writeX` or `writeLimb`. -/
theorem hostWriteRegister : Obligations.HostWriteRegister := by
  refine fun s h v rest => ⟨fun r hp => ?_, fun j hp => ?_⟩
  · obtain ⟨hstep, hserved⟩ := step_memWrite_served (slot := .x r) hp rfl
    obtain ⟨hx, hlimbs, hctrl, hstatus, hfault, -⟩ := writeX_writesOnlyX { s with pending := rest } r v
    exact ⟨_, hstep, hserved, hx, hlimbs, hctrl, hstatus, hfault⟩
  · obtain ⟨hstep, hserved⟩ := step_memWrite_served (slot := .limb j) hp rfl
    exact ⟨_, hstep, hserved, fun k => readLimb_writeLimb { s with pending := rest } j k v, fun _ => rfl, rfl, rfl, rfl⟩

/-- Settles O20: both offsets hold a register whose write is ignored. -/
theorem readOnlyWriteIgnored : Obligations.ReadOnlyWriteIgnored := by
  rintro s h v rest (hp | hp)
  · obtain ⟨hstep, hserved⟩ := step_memWrite_served (slot := .id) hp rfl
    exact ⟨_, hstep, hserved, fun _ => rfl, fun _ => rfl, rfl, rfl, rfl⟩
  · obtain ⟨hstep, hserved⟩ := step_memWrite_served (slot := .faultcmd) hp rfl
    exact ⟨_, hstep, hserved, fun _ => rfl, fun _ => rfl, rfl, rfl, rfl⟩

/-- A host write of any register and a host read of it are served one after the other, the read with what the write left. -/
theorem step_memWrite_memRead {s t : State} {h k : Nat} {slot : Slot} {v : Word} {rest : List PortEvent}
    (hp : s.pending = memWrite h slot.offset v :: memRead k slot.offset :: rest)
    (hw : writeSlot slot v { s with pending := memRead k slot.offset :: rest } = .next t) :
    ∃ u, step s = .next (t.answer h .done) ∧ step (t.answer h .done) = .next u ∧ u.pending = rest ∧
      u.replies = s.replies ++ [⟨h, .done⟩, ⟨k, .data (lanesOfWord (readSlot slot t))⟩] := by
  obtain ⟨hstep, hpending, hreplies⟩ := step_memWrite_served hp hw
  have hread : readSlot slot (t.answer h .done) = readSlot slot t :=
    readSlot_congr slot ⟨fun _ => rfl, fun _ => rfl, rfl, rfl, rfl⟩
  refine ⟨_, hstep, step_memRead hpending, rfl, ?_⟩
  rw [hread, answer_replies]
  exact (congrArg (· ++ _) hreplies).trans (List.append_assoc _ _ _)

/-- Settles O26: the register read is the one just written. -/
theorem hostReadAfterWrite : Obligations.HostReadAfterWrite := by
  intro s h k slot v rest hp
  obtain ⟨t, hw, -⟩ := writeSlot_next slot v { s with pending := memRead k slot.offset :: rest }
  obtain ⟨u, hstep, hnext, hpending, hreplies⟩ := step_memWrite_memRead hp hw
  refine ⟨_, u, hstep, hnext, hpending, ?_, ?_⟩
  · rintro (⟨j, rfl⟩ | ⟨r, hr, rfl⟩) <;> cases hw <;> rw [hreplies]
    · rw [readSlot, readLimb_writeLimb, if_pos rfl]
    · rw [readSlot, readX_writeX_self _ hr]
  · rintro rfl
    rw [hreplies, readSlot, readX_zero]
    rfl

end Sys2Proof.Machine
end

section
/-! The constant-divisor divider: what MAGIC's constant is, the remainder commands, and where the divisions are exact
(41_cdiv.md rules R100, R103, R105 to R110). -/

namespace Sys2Proof.Machine

/-! ### The magic constant (R100) -/

/-- The error term is 0 exactly for the divisors of 2^64. -/
theorem errorTerm_eq_zero_iff {d : Nat} (hd : 1 ≤ d) : errorTerm d = 0 ↔ d ∣ 2 ^ 64 := by
  obtain ⟨hmul, hlt⟩ := magicNat_mul d hd
  refine ⟨fun hzero => ⟨magicNat d, ?_⟩, fun hdvd => ?_⟩
  · rw [Nat.mul_comm, hmul, hzero, Nat.add_zero]
  · have hsum : d ∣ 2 ^ 64 + errorTerm d := ⟨magicNat d, by rw [← hmul, Nat.mul_comm]⟩
    exact Nat.eq_zero_of_dvd_of_lt ((Nat.dvd_add_right hdvd).mp hsum) hlt

/-- The magic constant of a power of two is the complementary power. -/
theorem magicNat_two_pow {k : Nat} (hk : k ≤ 64) : errorTerm (2 ^ k) = 0 ∧ magicNat (2 ^ k) = 2 ^ (64 - k) := by
  have hzero : errorTerm (2 ^ k) = 0 := (errorTerm_eq_zero_iff Nat.one_le_two_pow).mpr (pow_dvd_pow 2 hk)
  obtain ⟨hmul, -⟩ := magicNat_mul (2 ^ k) Nat.one_le_two_pow
  refine ⟨hzero, Nat.eq_of_mul_eq_mul_right (Nat.two_pow_pos k) ?_⟩
  rw [hmul, hzero, Nat.add_zero, ← pow_add, Nat.sub_add_cancel hk]

/-- Settles O29: the error term is 0 exactly for the divisors of 2^64, which are the powers of two. -/
theorem magicConstantIsCeiling : Obligations.MagicConstantIsCeiling := by
  intro rd ra s hrd hrange
  refine ⟨_, execMagic_of_two_le rd ra s hrange, ?_⟩
  have hvalue : (magicConstant (low32 (s.readX ra))).toNat = magicNat ((s.readX ra).toNat % 2 ^ 32) := by
    rw [toNat_magicConstant _ (by rwa [toNat_low32]), toNat_low32, magicNat_eq _ (by omega)]
  have hwidth : (s.readX ra).toNat % 2 ^ 32 < 2 ^ 32 := Nat.mod_lt _ (by norm_num)
  rw [readX_writeX_self _ hrd, hvalue]
  generalize (s.readX ra).toNat % 2 ^ 32 = d at hrange hwidth ⊢
  obtain ⟨hmul, hlt⟩ := magicNat_mul d (by omega)
  refine ⟨rfl, by omega, by omega, ?_⟩
  calc magicNat d * d = 2 ^ 64
    _ ↔ errorTerm d = 0 := by omega
    _ ↔ d ∣ 2 ^ 64 := errorTerm_eq_zero_iff (by omega)
    _ ↔ ∃ k ≤ 64, d = 2 ^ k := Nat.dvd_prime_pow Nat.prime_two
    _ ↔ ∃ k, d = 2 ^ k := by
      refine exists_congr fun k => and_iff_right_of_imp ?_
      rintro rfl
      have hk : k < 32 := (Nat.pow_lt_pow_iff_right (by norm_num)).mp hwidth
      omega

/-! ### The remainder commands (R103, R105) -/

/-- `mullo` is the low half of the product taken at 128 bits. -/
theorem mullo_eq_extractLsb' (a b : Word) : mullo a b = (a.setWidth 128 * b.setWidth 128).extractLsb' 0 64 := by
  apply BitVec.eq_of_toNat_eq
  rw [toNat_mullo, BitVec.extractLsb'_toNat, BitVec.toNat_mul, BitVec.toNat_setWidth_of_le (by norm_num),
    BitVec.toNat_setWidth_of_le (by norm_num), Nat.shiftRight_zero, Nat.mod_mod_of_dvd _ (pow_dvd_pow 2 (by norm_num))]

/-- The remainder by a divisor operand, as the products at 128 bits. -/
theorem fastMod_low32_eq (a m d : Word) :
    fastMod a m (low32 d) =
      (((a.setWidth 128 * m.setWidth 128).extractLsb' 0 64).setWidth 128 *
        (d.extractLsb' 0 32).setWidth 128).extractLsb' 64 64 := by
  rw [fastMod, mulhi_eq_extractLsb', mullo_eq_extractLsb', setWidth_low32]

/-- Settles O31: both rows decode, and each command writes one register. -/
theorem remainderCommands : Obligations.RemainderCommands := by
  intro rd ra rb rc s
  simp only [← fastMod_low32_eq]
  exact ⟨decode_packFields .fmodn 0 rc rb ra rd (Laws.EncodedRow.fmodn rd ra rb rc rfl),
    decode_packFields .fmodw 0 rc rb ra rd (Laws.EncodedRow.fmodw rd ra rb rc rfl),
    ⟨_, rfl, writeX_writesOnlyX s rd _⟩, ⟨_, rfl, writeX_writesOnlyX s rd _⟩⟩

/-- A remainder by divisor 0 is 0. -/
theorem fastMod_of_divisor_zero (a m : Word) {d : Word} (hd : d.toNat = 0) : fastMod a m d = 0#64 :=
  BitVec.eq_of_toNat_eq (by simp [hd])

/-- What a remainder command leaves in its destination is below the divisor, and 0 for divisor 0. -/
theorem readX_fastMod_below (s : State) {rd : Reg} (hrd : rd ≠ 0#4) (a m d : Word) :
    (1 ≤ d.toNat % 2 ^ 32 → ((s.writeX rd (fastMod a m (low32 d))).readX rd).toNat < d.toNat % 2 ^ 32) ∧
      (d.toNat % 2 ^ 32 = 0 → (s.writeX rd (fastMod a m (low32 d))).readX rd = 0#64) := by
  rw [readX_writeX_self s hrd, ← toNat_low32]
  exact ⟨fun hd => fastMod_lt a m _ (by omega), fastMod_of_divisor_zero a m⟩

/-- Settles O32: both commands write a `fastMod` by the divisor operand. -/
theorem remainderBelowDivisor : Obligations.RemainderBelowDivisor := by
  rintro rd ra rb rc i s hrd (rfl | rfl)
  · exact ⟨_, rfl, readX_fastMod_below s hrd _ _ _⟩
  · exact ⟨_, rfl, readX_fastMod_below s hrd _ _ _⟩

/-! ### Exactness (R106 to R108) -/

/-- What a division with a magic constant leaves in its destination, as a number. -/
theorem toNat_readX_fastDiv (s : State) {rd : Reg} (hrd : rd ≠ 0#4) (a : Word) {m : Word} {d : Nat}
    (hm : m.toNat = magicNat d) : ((s.writeX rd (fastDiv a m)).readX rd).toNat = a.toNat * magicNat d / 2 ^ 64 := by
  rw [readX_writeX_self s hrd, toNat_fastDiv, hm]

/-- What a remainder with a magic constant leaves in its destination, as a number. -/
theorem toNat_readX_fastMod (s : State) {rd : Reg} (hrd : rd ≠ 0#4) (a : Word) {m dw : Word} {d : Nat}
    (hm : m.toNat = magicNat d) (hd : dw.toNat % 2 ^ 32 = d) :
    ((s.writeX rd (fastMod a m (low32 dw))).readX rd).toNat = a.toNat * magicNat d % 2 ^ 64 * d / 2 ^ 64 := by
  rw [readX_writeX_self s hrd, toNat_fastMod, toNat_low32, hm, hd]

/-- Settles O33: the criterion, said of what the two commands leave in their destination. -/
theorem exactnessCriterion : Obligations.ExactnessCriterion := by
  intro rd ra rb rc s hrd d a e hd hm
  have hd1 : 1 ≤ d := by omega
  refine ⟨_, _, rfl, rfl, ?_⟩
  rw [toNat_readX_fastDiv s hrd _ hm, toNat_readX_fastMod s hrd _ hm rfl]
  exact ⟨fastQuotient_eq_iff a d hd1, fastRemainder_of_quotient a d hd1, fastDivision_exact a d hd1⟩

/-- A 32-bit dividend times an error term below a 32-bit divisor stays below 2^64. -/
theorem narrow_error_lt {a d : Nat} (ha : a < 2 ^ 32) (hd : 1 ≤ d) (hd32 : d < 2 ^ 32) : a * errorTerm d < 2 ^ 64 := by
  obtain ⟨-, herror⟩ := magicNat_mul d hd
  exact (Nat.mul_lt_mul'' ha (herror.trans hd32)).trans_eq (pow_add 2 32 32).symm

/-- Settles O34: the error stays below 2^64. -/
theorem narrowDivisionExact : Obligations.NarrowDivisionExact := by
  intro rd ra rb rc s hrd d a hd hm
  have hd1 : 1 ≤ d := by omega
  have herror : a * errorTerm d < 2 ^ 64 :=
    narrow_error_lt (Nat.mod_lt _ (by norm_num)) hd1 (Nat.mod_lt _ (by norm_num))
  refine ⟨_, _, rfl, rfl, ?_⟩
  rw [toNat_readX_fastDiv s hrd _ hm, toNat_readX_fastMod s hrd _ hm rfl, toNat_low32]
  exact fastDivision_exact a d hd1 herror

/-- Where the quotient is exact, the remainder is exact just when the error stays below 2^64. -/
theorem fastRemainder_eq_iff {a d : Nat} (hd : 1 ≤ d) (hq : a * magicNat d / 2 ^ 64 = a / d) :
    a * magicNat d % 2 ^ 64 * d / 2 ^ 64 = a % d ↔ a * errorTerm d < 2 ^ 64 := by
  rw [fastRemainder_of_quotient a d hd hq, Nat.add_eq_left, Nat.div_eq_zero_iff]
  simp

/-- From where on a divisor's two results are inexact: `ar` is the first dividend whose error reaches 2^64, and `aq` the
first at which the quotient's criterion fails. -/
theorem fastDivision_first_inexact {d e aq ar : Nat} (hd : 1 ≤ d) (he : errorTerm d = e)
    (hbelow : ∀ a < aq, a % d * 2 ^ 64 + a * e < d * 2 ^ 64) (hat : d * 2 ^ 64 ≤ aq % d * 2 ^ 64 + aq * e)
    (hrbelow : ∀ a < ar, a * e < 2 ^ 64) (hrat : 2 ^ 64 ≤ ar * e) (har : ar < aq) (a : Nat) :
    (a < aq → a * magicNat d / 2 ^ 64 = a / d) ∧ (a = aq → ¬ a * magicNat d / 2 ^ 64 = a / d) ∧
      (a < ar → a * magicNat d % 2 ^ 64 * d / 2 ^ 64 = a % d) ∧
      (a = ar → ¬ a * magicNat d % 2 ^ 64 * d / 2 ^ 64 = a % d) := by
  subst he
  have hquotient : ∀ a < aq, a * magicNat d / 2 ^ 64 = a / d := fun a ha =>
    (fastQuotient_eq_iff a d hd).mpr (hbelow a ha)
  refine ⟨hquotient a, ?_, fun ha => ?_, ?_⟩
  · rintro rfl
    rw [fastQuotient_eq_iff a d hd]
    exact Nat.not_lt.mpr hat
  · exact (fastRemainder_eq_iff hd (hquotient a (ha.trans har))).mpr (hrbelow a ha)
  · rintro rfl
    rw [fastRemainder_eq_iff hd (hquotient a har)]
    exact Nat.not_lt.mpr hrat

/-- Settles O35: 32 and 64 have error term 0, and the other divisors have theirs as a number. -/
theorem widenedDivisionExact : Obligations.WidenedDivisionExact := by
  intro rd ra rb rc s hrd d a hm
  refine ⟨_, _, rfl, rfl, ?_⟩
  rw [toNat_readX_fastDiv s hrd _ hm, toNat_readX_fastMod s hrd _ hm rfl]
  refine ⟨?_, fun hd => ?_, fun hd => ?_, fun hd => ?_⟩
  · have hzero : d = 32 ∨ d = 64 → errorTerm d = 0 := by
      rintro (h | h) <;> rw [h] <;> decide
    intro hd
    exact fastDivision_exact a d (by omega) (by rw [hzero hd, Nat.mul_zero]; norm_num)
  · rw [hd]
    exact fastDivision_first_inexact (e := 34) (by decide) (by decide) (fun a ha => by omega) (by decide)
      (fun a ha => by omega) (by decide) (by decide) a
  · rw [hd]
    exact fastDivision_first_inexact (e := 1716) (by decide) (by decide) (fun a ha => by omega) (by decide)
      (fun a ha => by omega) (by decide) (by decide) a
  · rw [hd]
    exact fastDivision_first_inexact (e := 65632) (by decide) (by decide) (fun a ha => by omega) (by decide)
      (fun a ha => by omega) (by decide) (by decide) a

/-- Settles O36: the operands are numbers, and the formula is evaluated on them. -/
theorem widenedContractCounterexample : Obligations.WidenedContractCounterexample := by
  intro s ha hm hd
  refine ⟨_, _, rfl, rfl, ?_⟩
  rw [readX_writeX_self s (by decide), readX_writeX_self s (by decide), ha, hm, hd]
  decide

/-! ### Powers of two (R110) -/

/-- By a power of two both results are exact for every dividend: the error term is 0. -/
theorem fastDivision_two_pow {k : Nat} (hk : k ≤ 64) (a : Nat) :
    a * magicNat (2 ^ k) / 2 ^ 64 = a / 2 ^ k ∧ a * magicNat (2 ^ k) % 2 ^ 64 * 2 ^ k / 2 ^ 64 = a % 2 ^ k := by
  obtain ⟨hzero, -⟩ := magicNat_two_pow hk
  exact fastDivision_exact a (2 ^ k) Nat.one_le_two_pow (by rw [hzero, Nat.mul_zero]; norm_num)

/-- Settles O37: the exact quotient is the shift and the exact remainder the low bits. -/
theorem powerOfTwoDivision : Obligations.PowerOfTwoDivision := by
  intro rd ra rb rc k s hrd hk1 hk31 hd hm
  have hmagic : (s.readX rb).toNat = magicNat (2 ^ k) := by
    have hlt : 2 ^ (64 - k) < 2 ^ 64 := Nat.pow_lt_pow_right (by norm_num) (by omega)
    obtain ⟨-, hpower⟩ := magicNat_two_pow (k := k) (by omega)
    rw [hm, hpower, BitVec.toNat_shiftLeft, BitVec.toNat_ofNat, Nat.one_mod, Nat.shiftLeft_eq, Nat.one_mul,
      Nat.mod_eq_of_lt hlt]
  have hshift : ∀ a : Word, (s.writeX rd (fastDiv a (s.readX rb))).readX rd = a >>> k := fun a => by
    obtain ⟨hquotient, -⟩ := fastDivision_two_pow (k := k) (by omega) a.toNat
    apply BitVec.eq_of_toNat_eq
    rw [toNat_readX_fastDiv s hrd a hmagic, hquotient, BitVec.toNat_ushiftRight, Nat.shiftRight_eq_div_pow]
  have hmask : ∀ a : Word,
      ((s.writeX rd (fastMod a (s.readX rb) (low32 (s.readX rc)))).readX rd).toNat = a.toNat % 2 ^ k := fun a => by
    obtain ⟨-, hremainder⟩ := fastDivision_two_pow (k := k) (by omega) a.toNat
    rw [toNat_readX_fastMod s hrd a hmagic hd, hremainder]
  refine ⟨_, _, _, _, rfl, rfl, rfl, rfl, hshift _, hmask _, hshift _, (hmask _).trans ?_⟩
  rw [toNat_low32, Nat.mod_mod_of_dvd _ (pow_dvd_pow 2 (by omega))]

end Sys2Proof.Machine
end

section
/-! The pseudo-instructions: what their expansions do (30_encoding.md rule R79). -/

namespace Sys2Proof.Machine

/-- The first of several commands is executed, then the rest on what it leaves. -/
theorem execAll_cons {i : Instr} {rest : List Instr} {s t : State} (h : exec i s = .next t) :
    execAll (i :: rest) s = execAll rest t := by
  rw [execAll, h]

/-- MADD with x0 twice as a factor copies its third source. -/
theorem execAll_madd_zero (rd rc : Reg) (s : State) :
    execAll [.madd rd 0 0 rc] s = .next (s.writeX rd (s.readX rc)) := by
  have hvalue : s.readX 0 * s.readX 0 + s.readX rc = s.readX rc := by
    rw [show s.readX 0 = 0#64 from readX_zero s, BitVec.zero_mul, BitVec.zero_add]
  rw [execAll_cons (exec_madd rd 0 0 rc s), hvalue, execAll]

/-- The payload of two zero halves is zero in every limb. -/
theorem limbAt_packedLimbs_zero (j : LimbIndex) : limbAt (packedLimbs 0#64 0#64) j.val = 0#64 := by
  revert j
  decide

/-- Settles O59: MOV and CLR are one MADD each, and CLRL packs two zero halves. -/
theorem simplePseudoInstructions : Obligations.SimplePseudoInstructions := by
  intro xd xa s
  refine ⟨⟨_, execAll_madd_zero xd xa s, writeX_writesOnlyX s xd _⟩, ⟨_, execAll_madd_zero xd 0 s, ?_⟩,
    s.withLimbs (packedLimbs 0#64 0#64), rfl, limbAt_packedLimbs_zero, fun _ => rfl, rfl, rfl, rfl, rfl, rfl⟩
  rw [show s.readX 0 = 0 from readX_zero s]
  exact writeX_writesOnlyX s xd 0

/-! ### SPLIT3 -/

/-- The narrow quotient and remainder by a 32-bit divisor with its magic constant, for a 32-bit dividend (R107). -/
theorem narrow_exact {a m dw : Word} {d : Nat} (hd : 1 ≤ d) (hd32 : d < 2 ^ 32) (ha : a.toNat < 2 ^ 32)
    (hm : m.toNat = magicNat d) (hdw : dw.toNat = d) :
    (fastDiv (low32 a) m).toNat = a.toNat / d ∧ (fastMod (low32 a) m (low32 dw)).toNat = a.toNat % d := by
  rw [toNat_fastDiv, toNat_fastMod, toNat_low32, toNat_low32, Nat.mod_eq_of_lt ha, hm, hdw, Nat.mod_eq_of_lt hd32]
  exact fastDivision_exact a.toNat d hd (narrow_error_lt ha hd hd32)

/-- The three destinations differ, and none is a source. -/
theorem split3_wellFormed {xq2 xq1 xq0 xr xm1 xd1 xm2 xd2 : Reg}
    (h : (Pseudo.split3 xq2 xq1 xq0 xr xm1 xd1 xm2 xd2).wellFormed = true) :
    (xq2 ≠ xq1 ∧ xq2 ≠ xq0 ∧ xq1 ≠ xq0) ∧ ∀ q ∈ [xq2, xq1, xq0], ∀ x ∈ [xr, xm1, xd1, xm2, xd2], x ≠ q := by
  simp only [Pseudo.wellFormed, Bool.and_eq_true, decide_eq_true_eq, List.all_eq_true, and_assoc] at h
  obtain ⟨h21, h20, h10, hsource⟩ := h
  exact ⟨⟨h21, h20, h10⟩, fun q hq x hx => (hsource q hq x hx).symm⟩

/-- What SPLIT3 leaves: the quotient by 3364, then the middle and lowest digit formed from the remainder in `x[xq0]`. -/
def splitResult (xq2 xq1 xq0 xr xm1 xd1 xm2 xd2 : Reg) (s : State) : State :=
  let low := fastMod (low32 (s.readX xr)) (s.readX xm2) (low32 (s.readX xd2))
  let t := (s.writeX xq2 (fastDiv (low32 (s.readX xr)) (s.readX xm2))).writeX xq0 low
  (t.writeX xq1 (fastDiv (low32 (t.readX xq0)) (s.readX xm1))).writeX xq0
    (fastMod (low32 (t.readX xq0)) (s.readX xm1) (low32 (s.readX xd1)))

/-- The expansion's four commands leave `splitResult`: no destination overwrites a source. -/
theorem execAll_split3 {xq2 xq1 xq0 xr xm1 xd1 xm2 xd2 : Reg} (s : State)
    (h : (Pseudo.split3 xq2 xq1 xq0 xr xm1 xd1 xm2 xd2).wellFormed = true) :
    execAll (Pseudo.split3 xq2 xq1 xq0 xr xm1 xd1 xm2 xd2).expand s =
      .next (splitResult xq2 xq1 xq0 xr xm1 xd1 xm2 xd2 s) := by
  obtain ⟨⟨-, -, h10⟩, hsource⟩ := split3_wellFormed h
  simp only [List.forall_mem_cons, List.not_mem_nil, false_imp_iff, implies_true, and_true] at hsource
  obtain ⟨⟨hr2, hm12, hd12, hm22, hd22⟩, ⟨-, hm11, hd11, -, -⟩, ⟨-, hm10, hd10, -, -⟩⟩ := hsource
  simp only [Pseudo.expand, execAll, exec, execFdivn, execFmodn, splitResult, readX_writeX_other _ hr2,
    readX_writeX_other _ hm12, readX_writeX_other _ hd12, readX_writeX_other _ hm22, readX_writeX_other _ hd22,
    readX_writeX_other _ hm11, readX_writeX_other _ hd11, readX_writeX_other _ hm10, readX_writeX_other _ hd10,
    readX_writeX_other _ h10.symm]

/-- Settles O60: both divisions by 3364 and by 58 are narrow, hence exact. -/
theorem splitSuperDigit : Obligations.SplitSuperDigit := by
  intro xq2 xq1 xq0 xr xm1 xd1 xm2 xd2 s hwf hr hm1 hd1 hm2 hd2
  obtain ⟨⟨h21, h20, h10⟩, -⟩ := split3_wellFormed hwf
  obtain ⟨hquotient, hlow⟩ := narrow_exact (d := 58 ^ 2) (dw := s.readX xd2) (by norm_num) (by norm_num)
    (hr.trans (by norm_num)) hm2 (by rw [hd2]; rfl)
  have hdigits := narrow_exact (d := 58) (a := fastMod (low32 (s.readX xr)) (s.readX xm2) (low32 (s.readX xd2)))
    (dw := s.readX xd1) (by norm_num) (by norm_num) (by rw [hlow]; omega) hm1 (by rw [hd1]; rfl)
  rw [hlow] at hdigits
  obtain ⟨hmiddle, hlowest⟩ := hdigits
  refine ⟨_, execAll_split3 s hwf, fun h2 => ?_, fun h1 h0 => ?_, fun h1 h0 => ?_, fun h0 => ?_, fun r hr2 hr1 hr0 => ?_,
    ?_⟩
  · simp only [splitResult, readX_writeX_other _ h20, readX_writeX_other _ h21, readX_writeX_self _ h2, hquotient]
  · simp only [splitResult, readX_writeX_other _ h10, readX_writeX_self _ h1, readX_writeX_self _ h0, hmiddle]
    omega
  · subst h0
    simp only [splitResult, readX_writeX_other _ h10, readX_writeX_self _ h1, readX_zero]
    exact BitVec.eq_of_toNat_eq (by simp)
  · simp only [splitResult, readX_writeX_self _ h0, hlowest]
    omega
  · simp only [splitResult, readX_writeX_other _ hr0, readX_writeX_other _ hr1, readX_writeX_other _ hr2]
  · simp [splitResult, SameLimbs, PortKept]

end Sys2Proof.Machine
end

section
/-! Whole passes over the limbs: long division, Horner accumulation, and packing (42_mlbc.md rules R120 to R131). -/

namespace Sys2Proof.Machine

/-! ### Skipping zero limbs (R131) -/

/-- A limb that reads 0 may be written 0. -/
theorem withLimb_zero {limbs : Vector Word 8} {k : Nat} (h : limbAt limbs k = 0#64) : withLimb limbs k 0#64 = limbs :=
  limbs_ext fun i _ => by
    rw [limbAt_withLimb]
    split_ifs with hi
    · rw [hi.1, h]
    · rfl

/-- With remainder 0 and a zero limb, a step of LDIVMOD's loop does nothing. -/
theorem divLoop_succ_of_zero (lw : Nat) (d m : Word) {k : Nat} {limbs : Vector Word 8} (h : limbAt limbs k = 0#64) :
    divLoop lw d m (k + 1) limbs 0#64 = divLoop lw d m k limbs 0#64 := by
  have htemp : divTemp lw 0#64 0#64 = 0#64 := BitVec.eq_of_toNat_eq (by simp [toNat_divTemp])
  have hquotient : fastDiv 0#64 m = 0#64 := BitVec.eq_of_toNat_eq (by simp)
  have hremainder : fastMod 0#64 m d = 0#64 := BitVec.eq_of_toNat_eq (by simp)
  rw [divLoop, h, htemp, hquotient, hremainder, withLimb_zero h]

/-- LDIVMOD's loop may start below zero leading limbs. -/
theorem divLoop_skip (lw : Nat) (d m : Word) {k n : Nat} (hkn : k ≤ n) {limbs : Vector Word 8}
    (h : ∀ i, k ≤ i → i < n → limbAt limbs i = 0#64) :
    divLoop lw d m n limbs 0#64 = divLoop lw d m k limbs 0#64 := by
  induction n, hkn using Nat.le_induction with
  | base => rfl
  | succ n hn ih =>
    rw [divLoop_succ_of_zero lw d m (h n hn (Nat.lt_succ_self n)), ih fun i hi hin => h i hi (Nat.lt_succ_of_lt hin)]

/-- LDIVMOD from an active limb number. -/
theorem exec_ldivmod_pass (rd rb rc : Reg) {first : BitVec 3} {s : State} (h : first.toNat < s.ctrl.limbCount) :
    exec (.ldivmod rd rb rc (0#5 ++ first)) s = .next
      ((s.withLimbs (divLoop s.ctrl.limbWidth (low32 (s.readX rb)) (s.readX rc) (first.toNat + 1) s.limbs 0#64).1).writeX rd
        (divLoop s.ctrl.limbWidth (low32 (s.readX rb)) (s.readX rc) (first.toNat + 1) s.limbs 0#64).2) := by
  have hpass := execLdivmod_pass rd rb rc (0#5 ++ first) s (by rwa [firstLimb_zero_append])
  rwa [firstLimb_zero_append] at hpass

/-- Settles O40: both passes leave the same state. -/
theorem skippingZeroLimbs : Obligations.SkippingZeroLimbs := by
  intro rd rb rc first s hfirst hzero
  have htop : s.ctrl.nl.toNat < s.ctrl.limbCount := Nat.lt_succ_self _
  have hskip := divLoop_skip s.ctrl.limbWidth (low32 (s.readX rb)) (s.readX rc) (Nat.succ_le_succ hfirst)
    (limbs := s.limbs) fun i hi hin =>
      hzero ⟨i, hin.trans_le s.ctrl.nl.isLt⟩ (Nat.lt_of_succ_le hi) (Nat.le_of_lt_succ hin)
  have hfull := exec_ldivmod_pass rd rb rc htop
  rw [hskip] at hfull
  exact ⟨_, _, exec_ldivmod_pass rd rb rc (Nat.lt_of_le_of_lt hfirst htop), hfull, fun _ => rfl, fun _ => rfl, rfl⟩

/-! ### Long division (R128) -/

theorem limbWidth_lt (c : Ctrl) : c.limbWidth < 32 := c.lw.isLt

theorem limbCount_le (c : Ctrl) : c.limbCount ≤ 8 := c.nl.isLt

/-- A limb below the active count of a well-formed state, by its number. -/
theorem LimbsWellFormed.limbAt_lt {s : State} (h : LimbsWellFormed s) {i : Nat} (hi : i < s.ctrl.limbCount) :
    (limbAt s.limbs i).toNat < 2 ^ s.ctrl.limbWidth :=
  h ⟨i, hi.trans_le (limbCount_le s.ctrl)⟩ hi

/-- LDIVMOD's loop from remainder 0 divides the limb value, wherever each step's multiply-and-shift is exact. -/
theorem divLoop_divides {lw d n : Nat} {dw m : Word} (hdw : dw.toNat = d) (hm : m.toNat = magicNat d) (hd : 1 ≤ d)
    (hfit : d * 2 ^ lw ≤ 2 ^ 64) (herror : ∀ a, a < d * 2 ^ lw → a * errorTerm d < 2 ^ 64) (hn : n ≤ 8)
    {limbs : Vector Word 8} (hlimbs : ∀ i, i < n → (limbAt limbs i).toNat < 2 ^ lw) :
    limbSum lw (divLoop lw dw m n limbs 0#64).1 n = limbSum lw limbs n / d ∧
      (divLoop lw dw m n limbs 0#64).2.toNat = limbSum lw limbs n % d ∧
      ∀ i, i < n → (limbAt (divLoop lw dw m n limbs 0#64).1 i).toNat < 2 ^ lw := by
  obtain ⟨hsum, hlt, hsmall⟩ := divLoop_exact lw d dw m hdw hm hd hfit herror n hn limbs hlimbs 0#64 hd
  rw [BitVec.toNat_zero, Nat.zero_mul, Nat.zero_add, Nat.add_comm, Nat.mul_comm] at hsum
  obtain ⟨hquotient, hremainder⟩ := (Nat.div_mod_unique hd).mpr ⟨hsum, hlt⟩
  exact ⟨hquotient.symm, hremainder.symm, hsmall⟩

/-- A word is the word of its number. -/
theorem eq_ofNat_of_toNat_eq {w : Word} {n : Nat} (h : w.toNat = n) : w = BitVec.ofNat 64 n := by
  rw [← h, BitVec.ofNat_toNat, BitVec.setWidth_eq]

/-- Settles O39: the zero limbs above `first` make it a pass over all active limbs, which divides. -/
theorem longDivisionLaw : Obligations.LongDivisionLaw := by
  intro rd rb rc first s d hfirst hwf hzero hd hm herror
  have hfit : d * 2 ^ s.ctrl.limbWidth ≤ 2 ^ 64 := by
    have hd32 : d ≤ 2 ^ 32 := (Nat.mod_lt _ (by norm_num)).le
    have hwidth : 2 ^ s.ctrl.limbWidth ≤ 2 ^ 32 := Nat.pow_le_pow_right (by norm_num) (limbWidth_lt s.ctrl).le
    exact (Nat.mul_le_mul hd32 hwidth).trans_eq (pow_add 2 32 32).symm
  obtain ⟨hvalue, hremainder, hsmall⟩ := divLoop_divides (toNat_low32 _) hm (by omega) hfit herror
    (limbCount_le s.ctrl) fun _ hi => hwf.limbAt_lt hi
  have hexec := exec_ldivmod_pass rd rb rc hfirst
  rw [← divLoop_skip _ _ _ hfirst fun i hi hin =>
    hzero ⟨i, hin.trans_le (limbCount_le s.ctrl)⟩ (Nat.lt_of_succ_le hi) hin] at hexec
  refine ⟨_, hexec, ?_, ?_, ?_⟩
  · intro j hj
    rw [writeX_ctrl] at hj ⊢
    rw [readLimb_writeX, readLimb_withLimbs]
    exact hsmall j.val hj
  · rw [limbValue, writeX_limbs, writeX_ctrl]
    exact hvalue
  · rw [limbValue, ← eq_ofNat_of_toNat_eq hremainder]
    exact withLimbs_writeX_writesX s _ rd _

/-! ### Seven passes (R129) -/

/-- What a pass by 58^3 needs of the state: the reset CTRL, well-formed limbs, the divisor and its magic constant. -/
structure DigitPass (rb rc : Reg) (s : State) : Prop where
  width : s.ctrl.limbWidth = 30
  count : s.ctrl.limbCount = 4
  wellFormed : LimbsWellFormed s
  divisor : (s.readX rb).toNat % 2 ^ 32 = 58 ^ 3
  magic : (s.readX rc).toNat = magicNat (58 ^ 3)

/-- One pass splits off the lowest digit, leaves limbs 4 to 7, and can be repeated. -/
theorem DigitPass.after_ldivmod {rd rb rc : Reg} {s : State} (h : DigitPass rb rc s) (hrd : rd ≠ 0#4) (hrb : rd ≠ rb)
    (hrc : rd ≠ rc) :
    ∃ t, exec (.ldivmod rd rb rc 3) s = .next t ∧ DigitPass rb rc t ∧ limbValue t = limbValue s / 58 ^ 3 ∧
      t.readX rd = BitVec.ofNat 64 (limbValue s % 58 ^ 3) ∧ ∀ j : LimbIndex, 4 ≤ j.val → t.readLimb j = s.readLimb j := by
  have hcount : s.ctrl.nl.toNat + 1 = 4 := h.count
  have herror : ∀ a, a < 58 ^ 3 * 2 ^ s.ctrl.limbWidth → a * errorTerm (58 ^ 3) < 2 ^ 64 := by
    intro a ha
    rw [h.width] at ha
    rw [show errorTerm (58 ^ 3) = 65632 by decide]
    omega
  obtain ⟨-, -, hpass⟩ := ldivmodCommand rd rb rc 3#3 s
  obtain ⟨t, rem, hexec, -, -, habove, hx, hctrl, -⟩ := hpass (by rw [hcount]; decide)
  obtain ⟨u, hexec', hwf, hvalue, hdigit⟩ := longDivisionLaw rd rb rc 3#3 s (by rw [h.count]; decide) h.wellFormed
    (fun j hj hjn => absurd hjn (by rw [h.count]; exact Nat.not_lt.mpr hj)) (by rw [h.divisor]; norm_num)
    (by rw [h.divisor]; exact h.magic) (by rw [h.divisor]; exact herror)
  cases hexec.symm.trans hexec'
  rw [h.divisor] at hvalue hdigit
  exact ⟨t, hexec, ⟨by rw [hctrl, h.width], by rw [hctrl, h.count], hwf, by rw [hx.read_other hrb.symm, h.divisor],
    by rw [hx.read_other hrc.symm, h.magic]⟩, hvalue, hdigit.read_self hrd, fun j hj => habove j hj⟩

/-- `n` passes give the `n` lowest digits, least significant first, and leave the rest of the value. -/
theorem DigitPass.collectRun_digits {rd rb rc : Reg} (hrd : rd ≠ 0#4) (hrb : rd ≠ rb) (hrc : rd ≠ rc) (n : Nat) {s : State}
    (h : DigitPass rb rc s) :
    ∃ t, collectRun (.ldivmod rd rb rc 3) rd n s =
        some ((List.range n).map fun k => BitVec.ofNat 64 (limbValue s / (58 ^ 3) ^ k % 58 ^ 3), t) ∧
      DigitPass rb rc t ∧ limbValue t = limbValue s / (58 ^ 3) ^ n ∧
      ∀ j : LimbIndex, 4 ≤ j.val → t.readLimb j = s.readLimb j := by
  induction n generalizing s with
  | zero => exact ⟨s, rfl, h, by rw [pow_zero, Nat.div_one], fun _ _ => rfl⟩
  | succ n ih =>
    obtain ⟨t, hexec, ht, hvalue, hdigit, habove⟩ := h.after_ldivmod hrd hrb hrc
    obtain ⟨u, hrun, hu, hrest, habove'⟩ := ih ht
    have hshift : ∀ k, limbValue t / (58 ^ 3) ^ k = limbValue s / (58 ^ 3) ^ (k + 1) := fun k => by
      rw [hvalue, Nat.div_div_eq_div_mul, ← pow_succ' (58 ^ 3)]
    refine ⟨u, ?_, hu, hrest.trans (hshift n), fun j hj => (habove' j hj).trans (habove j hj)⟩
    simp only [collectRun, hexec, hrun, hshift, hdigit, Option.map_some, List.range_succ_eq_map, List.map_cons,
      List.map_map, Function.comp_def, pow_zero, Nat.div_one]

/-- Limbs whose value is 0 are 0. -/
theorem limbAt_of_limbSum_eq_zero {lw n : Nat} {limbs : Vector Word 8} (h : limbSum lw limbs n = 0) {i : Nat} (hi : i < n) :
    limbAt limbs i = 0#64 := by
  induction n with
  | zero => omega
  | succ n ih =>
    obtain ⟨hbelow, htop⟩ := Nat.add_eq_zero_iff.mp h
    rcases Nat.lt_succ_iff_lt_or_eq.mp hi with hlt | rfl
    · exact ih hbelow hlt
    · exact BitVec.eq_of_toNat_eq ((Nat.mul_eq_zero.mp htop).resolve_right (Nat.two_pow_pos _).ne')

/-- Settles O41: a value below 2^120 has no more than seven digits to base 58^3. -/
theorem sevenPassesGiveDigits : Obligations.SevenPassesGiveDigits := by
  intro rd rb rc s hrd hrb hrc hwidth hcount hwf hdivisor hmagic
  have hstart : DigitPass rb rc s := ⟨hwidth, hcount, hwf, hdivisor, hmagic⟩
  obtain ⟨t, hrun, hend, hvalue, habove⟩ := hstart.collectRun_digits hrd hrb hrc 7
  have hbound : limbValue s < 2 ^ 120 :=
    calc limbValue s
      _ < 2 ^ (s.ctrl.limbWidth * s.ctrl.limbCount) := limbSum_lt _ _ _ fun _ hi => hwf.limbAt_lt hi
      _ = 2 ^ 120 := by rw [hwidth, hcount]
  have hzero : limbValue t = 0 := by
    rw [hvalue, Nat.div_eq_of_lt (hbound.trans (by norm_num))]
  exact ⟨t, hrun, fun j hj => limbAt_of_limbSum_eq_zero hzero (by rwa [hend.count]), habove⟩

/-! ### LMULADD (R122, R123) -/

/-- LMULADD's loop splits the product and sum at 2^(LW·n): the limbs hold what is below, and the carry is the rest. -/
theorem mulAddLoop_splits {lw n : Nat} (hlw : lw ≤ 64) (hn : n ≤ 8) (r c : Word) {limbs : Vector Word 8}
    (hlimbs : ∀ i, i < n → (limbAt limbs i).toNat < 2 ^ lw) :
    limbSum lw (mulAddLoop lw r n 0 limbs c).1 n = (limbSum lw limbs n * r.toNat + c.toNat) % 2 ^ (lw * n) ∧
      (mulAddLoop lw r n 0 limbs c).2.toNat = (limbSum lw limbs n * r.toNat + c.toNat) / 2 ^ (lw * n) ∧
      ∀ i, i < n → (limbAt (mulAddLoop lw r n 0 limbs c).1 i).toNat < 2 ^ lw := by
  obtain ⟨hsum, hsmall⟩ := mulAddLoop_exact lw hlw r n 0 (by omega) limbs (fun i _ hi => hlimbs i (by omega)) c
  simp only [limbSum, Nat.mul_zero, pow_zero, Nat.mul_one, Nat.zero_mul, Nat.zero_add, Nat.add_zero] at hsum hsmall
  have hbelow : ∀ i, i < n → (limbAt (mulAddLoop lw r n 0 limbs c).1 i).toNat < 2 ^ lw :=
    fun i hi => hsmall i (Nat.zero_le i) hi
  rw [Nat.mul_comm (BitVec.toNat _) (2 ^ (lw * n))] at hsum
  obtain ⟨hcarry, hvalue⟩ := (Nat.div_mod_unique (Nat.two_pow_pos _)).mpr ⟨hsum, limbSum_lt lw n _ hbelow⟩
  exact ⟨hvalue.symm, hcarry.symm, hbelow⟩

/-- Settles O43: the loop's split, and OVF set by a nonzero carry. -/
theorem hornerStepLaw : Obligations.HornerStepLaw := by
  intro rd ra rb s hwf total modulus
  have hwidth : s.ctrl.limbWidth ≤ 64 := ((limbWidth_lt s.ctrl).trans (by norm_num)).le
  obtain ⟨hvalue, hcarry, hsmall⟩ := mulAddLoop_splits hwidth (limbCount_le s.ctrl) (s.readX ra) (s.readX rb)
    fun _ hi => hwf.limbAt_lt hi
  generalize hout : mulAddLoop s.ctrl.limbWidth (s.readX ra) s.ctrl.limbCount 0 s.limbs (s.readX rb) = out at *
  have hexec : exec (.lmuladd rd ra rb) s =
      .next (((s.withLimbs out.1).writeX rd out.2).noteCarry out.2) := by
    rw [← hout]
    rfl
  have hquotient : out.2.toNat = total / modulus := hcarry
  refine ⟨_, hexec, ?_, ?_, hquotient ▸ out.2.isLt, ?_, ?_⟩
  · intro j hj
    rw [noteCarry_ctrl, writeX_ctrl] at hj ⊢
    rw [readLimb_noteCarry, readLimb_writeX, readLimb_withLimbs]
    exact hsmall j.val hj
  · rw [limbValue, noteCarry_limbs, noteCarry_ctrl, writeX_limbs, writeX_ctrl]
    exact hvalue
  · rw [← eq_ofNat_of_toNat_eq hquotient]
    exact withLimbs_writeX_writesX s _ rd _
  · have hnonzero : out.2 ≠ 0#64 ↔ modulus ≤ total :=
      calc out.2 ≠ 0#64
        _ ↔ out.2.toNat ≠ 0 := not_congr BitVec.toNat_eq
        _ ↔ total / modulus ≠ 0 := by rw [hquotient]
        _ ↔ modulus ≤ total := Nat.div_ne_zero_iff.trans (and_iff_right (Nat.two_pow_pos _).ne')
    rw [noteCarry_status, writeX_status, withLimbs_status, withCarry_ovf_iff, hnonzero]

/-! ### Horner accumulation (R123) -/

/-- The limbs and OVF of a state stand for an accumulated value: the limbs modulo 2^(LW·N), OVF for what does not fit. -/
structure Accumulates (total : Nat) (s : State) : Prop where
  wellFormed : LimbsWellFormed s
  value : limbValue s = total % 2 ^ (s.ctrl.limbWidth * s.ctrl.limbCount)
  overflow : s.status.ovf = true ↔ 2 ^ (s.ctrl.limbWidth * s.ctrl.limbCount) ≤ total

/-- An accumulated value that reached the modulus stays past it, and one below it is held whole. -/
theorem modulus_le_step {p total radix c : Nat} (hradix : 1 ≤ radix) :
    p ≤ total ∨ p ≤ total % p * radix + c ↔ p ≤ total * radix + c := by
  rcases Nat.lt_or_ge total p with h | h
  · rw [Nat.mod_eq_of_lt h, or_iff_right (Nat.not_le.mpr h)]
  · exact iff_of_true (.inl h) ((h.trans (Nat.le_mul_of_pos_right _ hradix)).trans (Nat.le_add_right _ _))

/-- The host's digit to `x[rb]`, then one LMULADD: the accumulated value takes one step (R123). -/
theorem Accumulates.after_lmuladd {rd ra rb : Reg} {total : Nat} {s : State} (h : Accumulates total s) (hrb : rb ≠ 0#4)
    (hab : ra ≠ rb) (had : ra ≠ rd) (hradix : 1 ≤ (s.readX ra).toNat) (c : Word) :
    ∃ t, exec (.lmuladd rd ra rb) (s.writeX rb c) = .next t ∧
      Accumulates (total * (s.readX ra).toNat + c.toNat) t ∧ t.readX ra = s.readX ra ∧ t.ctrl = s.ctrl := by
  have hwf : LimbsWellFormed (s.writeX rb c) := fun j hj => by
    rw [writeX_ctrl] at hj ⊢
    rw [readLimb_writeX]
    exact h.wellFormed j hj
  obtain ⟨t, hexec, hwf', hvalue, -, hx, hovf⟩ := hornerStepLaw rd ra rb (s.writeX rb c) hwf
  obtain ⟨hctrl, -⟩ := commandFrame _ _ _ hexec
  have hsum : limbValue (s.writeX rb c) = total % 2 ^ (s.ctrl.limbWidth * s.ctrl.limbCount) := by
    rw [limbValue, writeX_ctrl, writeX_limbs]
    exact h.value
  rw [readX_writeX_self _ hrb, readX_writeX_other _ hab, hsum, writeX_ctrl] at hvalue hovf
  rw [writeX_ctrl] at hctrl
  refine ⟨t, hexec, ⟨hwf', ?_, ?_⟩, (hx.read_other had).trans (readX_writeX_other _ hab _), hctrl⟩
  · rw [hvalue, hctrl, Nat.add_mod, Nat.mod_mul_mod, ← Nat.add_mod]
  · rw [hovf, hctrl, writeX_status, h.overflow, modulus_le_step hradix]

/-- The digits in turn accumulate. -/
theorem Accumulates.after_hornerRun {rd ra rb : Reg} (hrb : rb ≠ 0#4) (hab : ra ≠ rb) (had : ra ≠ rd) (digits : List Word)
    {total : Nat} {s : State} (h : Accumulates total s) (hradix : 1 ≤ (s.readX ra).toNat) :
    ∃ t, hornerRun rd ra rb digits s = .next t ∧ t.ctrl = s.ctrl ∧
      Accumulates (digits.foldl (fun acc c => acc * (s.readX ra).toNat + c.toNat) total) t := by
  induction digits generalizing total s with
  | nil => exact ⟨s, rfl, rfl, h⟩
  | cons c rest ih =>
    obtain ⟨t, hexec, ht, hra, hctrl⟩ := h.after_lmuladd hrb hab had hradix c
    rw [← hra] at hradix ht
    obtain ⟨u, hrun, hctrl', hu⟩ := ih ht hradix
    rw [hra] at hu
    exact ⟨u, by simp only [hornerRun, hexec, hrun], hctrl'.trans hctrl, hu⟩

/-- Zero limbs have the value 0. -/
theorem limbSum_of_zero {lw n : Nat} {limbs : Vector Word 8} (h : ∀ i, i < n → limbAt limbs i = 0#64) :
    limbSum lw limbs n = 0 :=
  limbSum_zero_above lw 0 n limbs (Nat.zero_le n) fun i _ hi => h i hi

/-- Settles O44: zero limbs with OVF = 0 stand for the accumulated value 0. -/
theorem hornerAccumulation : Obligations.HornerAccumulation := by
  intro rd ra rb digits s hrb hab had hradix hzero hovf
  have hstart : Accumulates 0 s := by
    refine ⟨fun j hj => ?_, ?_, ?_⟩
    · rw [hzero j hj]
      exact Nat.two_pow_pos _
    · rw [Nat.zero_mod]
      exact limbSum_of_zero fun i hi => hzero ⟨i, hi.trans_le (limbCount_le s.ctrl)⟩ hi
    · simp [hovf]
  obtain ⟨t, hrun, hctrl, ht⟩ := hstart.after_hornerRun hrb hab had digits hradix
  rw [← hctrl]
  exact ⟨t, hrun, ht.wellFormed, ht.value, ht.overflow⟩

/-! ### Packing (R125 to R127) -/

/-- Two 30-bit limbs of a half are its low 60 bits. -/
theorem joined_halves_mod (v : Nat) : v / 2 ^ 30 % 2 ^ 30 * 2 ^ 30 + v % 2 ^ 30 = v % 2 ^ 60 := by
  omega

/-- Settles O48: the limbs LPACK leaves are the halves' digits to base 2^30. -/
theorem packHoldsPayload : Obligations.PackHoldsPayload := by
  intro ra rb rh rl s hrh hrl hne
  obtain ⟨-, t, hexec, h0, h1, h2, h3, -, -, hctrl, -⟩ := lpackCommand ra rb s
  refine ⟨t, _, hexec, (execAll_cons (exec_lhi rh t)).trans (execAll_cons (exec_llo rl _)), ?_, ?_, ?_⟩
  · rw [readX_writeX_other _ hne, readX_writeX_self _ hrh, BitVec.toNat_ofNat, h3, h2, Nat.mod_mod, Nat.mod_mod,
      joined_halves_mod]
    omega
  · rw [readX_writeX_self _ hrl, readLimb_writeX, readLimb_writeX, BitVec.toNat_ofNat, h1, h0, Nat.mod_mod, Nat.mod_mod,
      joined_halves_mod]
    omega
  · intro hwidth hcount
    have hvalue : limbValue t = (t.readLimb 0).toNat + (t.readLimb 1).toNat * 2 ^ 30 + (t.readLimb 2).toNat * 2 ^ 60 +
        (t.readLimb 3).toNat * 2 ^ 90 := by
      rw [limbValue, hctrl, hwidth, hcount]
      simp [limbSum, State.readLimb]
    have hlow : ∀ j : LimbIndex, j.val < 4 → j = 0 ∨ j = 1 ∨ j = 2 ∨ j = 3 := by decide
    refine ⟨fun j hj => ?_, by rw [hvalue, h0, h1, h2, h3]; omega⟩
    rw [hctrl, hcount] at hj
    rw [hctrl, hwidth]
    obtain rfl | rfl | rfl | rfl := hlow j hj
    · exact h0 ▸ Nat.mod_lt _ (by norm_num)
    · exact h1 ▸ Nat.mod_lt _ (by norm_num)
    · exact h2 ▸ Nat.mod_lt _ (by norm_num)
    · exact h3 ▸ Nat.mod_lt _ (by norm_num)

end Sys2Proof.Machine
end

section
/-! Gather and scatter over any mask, and the round trips and order of the UUID halves (43_bfx.md sections 2 to 4 and 6). -/

namespace Sys2Proof.Machine

/-! ### Any mask (R9, R156, R157) -/

/-- Settles O52: the row decodes, and the gather is known bit by bit. -/
theorem pextGathers : Obligations.PextGathers := fun rd ra rb s =>
  ⟨decode_packFields .pext 0 0 rb ra rd (Laws.EncodedRow.pext rd ra rb rfl), _, _, rfl, writeX_writesOnlyX s rd _,
    fun _ hp hset => getLsbD_pextWord_maskRank _ _ hp hset, fun _ hj => getLsbD_pextWord_of_le _ _ hj⟩

/-- Settles O53: the row decodes, and the scatter is known bit by bit. -/
theorem pdepScatters : Obligations.PdepScatters := fun rd ra rb s =>
  ⟨decode_packFields .pdep 0 0 rb ra rd (Laws.EncodedRow.pdep rd ra rb rfl), _, _, rfl, writeX_writesOnlyX s rd _,
    fun _ hp => getLsbD_pdepWord _ _ hp⟩

/-- Scattering over the mask what was gathered over it keeps the masked bits: each set position gets its own bit back. -/
theorem pdepWord_pextWord (v m : Word) : pdepWord (pextWord v m) m = v &&& m := by
  apply BitVec.eq_of_getLsbD_eq
  intro p hp
  rw [getLsbD_pdepWord _ _ hp, BitVec.getLsbD_and]
  cases hset : m.getLsbD p with
  | false => rw [Bool.false_and, Bool.and_false]
  | true => rw [getLsbD_pextWord_maskRank v m hp hset, Bool.true_and, Bool.and_true]

/-- Settles O54: the gathered value and the mask stand in two registers. -/
theorem pdepOfPext : Obligations.PdepOfPext := by
  intro re rd ra rb s hrd hne
  refine ⟨_, _, rfl, rfl, ?_⟩
  rw [readX_writeX_self s hrd, readX_writeX_other s hne.symm, pdepWord_pextWord]
  exact writeX_writesOnlyX _ re _

/-! ### The halves as numbers (R142 to R149) -/

theorem toNat_pextWord_maskMsb (v : Word) :
    (pextWord v Config.maskMsb).toNat = v.toNat / 2 ^ 16 * 2 ^ 12 + v.toNat % 2 ^ 12 := by
  have hhigh : v.toNat / 2 ^ 16 < 2 ^ 48 := by omega
  rw [pextWord_maskMsb, BitVec.toNat_setWidth, toNat_append_eq_add, BitVec.extractLsb'_toNat, BitVec.extractLsb'_toNat,
    Nat.shiftRight_eq_div_pow, Nat.shiftRight_zero, Nat.mod_eq_of_lt hhigh]
  omega

theorem toNat_pextWord_maskLsb (v : Word) : (pextWord v Config.maskLsb).toNat = v.toNat % 2 ^ 60 := by
  rw [pextWord_maskLsb, BitVec.toNat_setWidth, BitVec.extractLsb'_toNat, Nat.shiftRight_zero]
  omega

theorem toNat_pextWord_maskLex (v : Word) : (pextWord v Config.maskLex).toNat = v.toNat / 4 % 2 ^ 60 := by
  rw [pextWord_maskLex, BitVec.toNat_setWidth, BitVec.extractLsb'_toNat, Nat.shiftRight_eq_div_pow]
  omega

theorem toNat_expandMsb (half f : Word) :
    (pdepWord half Config.maskMsb ||| (field f 3 0 <<< 12)).toNat =
      half.toNat / 2 ^ 12 % 2 ^ 48 * 2 ^ 16 + f.toNat % 16 * 2 ^ 12 + half.toNat % 2 ^ 12 := by
  rw [expandMsb_eq]
  simp only [toNat_append_eq_add, BitVec.extractLsb'_toNat, Nat.shiftRight_eq_div_pow, pow_zero, Nat.div_one]
  omega

theorem toNat_expandLsb (half f : Word) :
    (pdepWord half Config.maskLsb ||| (field f 3 0 <<< 60)).toNat = f.toNat % 16 * 2 ^ 60 + half.toNat % 2 ^ 60 := by
  rw [expandLsb_eq, toNat_append_eq_add, BitVec.extractLsb'_toNat, BitVec.extractLsb'_toNat, Nat.shiftRight_zero,
    Nat.shiftRight_zero]

theorem toNat_expandLex (half f : Word) :
    (pdepWord half Config.maskLex ||| pdepWord (field f 3 0) (~~~Config.maskLex)).toNat =
      f.toNat / 4 % 4 * 2 ^ 62 + half.toNat % 2 ^ 60 * 4 + f.toNat % 4 := by
  rw [expandLex_eq]
  simp only [toNat_append_eq_add, BitVec.extractLsb'_toNat, Nat.shiftRight_eq_div_pow, pow_zero, Nat.div_one]
  omega

/-! ### Round trips -/

/-- The msb expands back from its half and its version. -/
theorem expandMsb_compressMsb (v : Word) :
    pdepWord (pextWord v Config.maskMsb) Config.maskMsb ||| (field (field v 15 12) 3 0 <<< 12) = v := by
  apply BitVec.eq_of_toNat_eq
  rw [toNat_expandMsb, toNat_pextWord_maskMsb, toNat_field v 15 12 (by norm_num)]
  omega

/-- A half and a version compress back from the msb they expand to. -/
theorem compressMsb_expandMsb {half version : Word} (hhalf : half.toNat < 2 ^ 60) (hversion : version.toNat < 16) :
    pextWord (pdepWord half Config.maskMsb ||| (field version 3 0 <<< 12)) Config.maskMsb = half ∧
      field (pdepWord half Config.maskMsb ||| (field version 3 0 <<< 12)) 15 12 = version := by
  constructor <;> apply BitVec.eq_of_toNat_eq
  · rw [toNat_pextWord_maskMsb, toNat_expandMsb]
    omega
  · rw [toNat_field _ 15 12 (by norm_num), toNat_expandMsb]
    omega

/-- The lsb expands back from its half and its nibble. -/
theorem expandLsb_compressLsb (v : Word) :
    pdepWord (pextWord v Config.maskLsb) Config.maskLsb ||| (field (field v 63 60) 3 0 <<< 60) = v := by
  apply BitVec.eq_of_toNat_eq
  rw [toNat_expandLsb, toNat_pextWord_maskLsb, toNat_field_top v (by norm_num)]
  omega

/-- The lsb expands back from its lexical half and field. -/
theorem expandLex_compressLex (v : Word) :
    pdepWord (pextWord v Config.maskLex) Config.maskLex |||
      pdepWord (field ((field v 63 62 <<< 2) ||| field v 1 0) 3 0) (~~~Config.maskLex) = v := by
  apply BitVec.eq_of_toNat_eq
  rw [toNat_expandLex, toNat_pextWord_maskLex, lexicalField_eq_ofNat, BitVec.toNat_ofNat]
  omega

/-- A half to `x[rc]`, a field to `x[rv]`, and the two expanded to `x[rd]`, give `x[ra]` back when the three functions do
so of every word: the half and the field stand in two registers, and taking the half leaves `x[ra]`. -/
theorem compress_field_expand {c f e : Instr} {rd rc rv ra : Reg} (compress get : Word → Word)
    (expand : Word → Word → Word) (hc : ∀ s, exec c s = .next (s.writeX rc (compress (s.readX ra))))
    (hf : ∀ s, exec f s = .next (s.writeX rv (get (s.readX ra))))
    (he : ∀ s, exec e s = .next (s.writeX rd (expand (s.readX rc) (s.readX rv))))
    (hinverse : ∀ v, expand (compress v) (get v) = v) (hrc : rc ≠ 0#4) (hrv : rv ≠ 0#4) (hcv : rc ≠ rv) (hca : rc ≠ ra)
    (hrd : rd ≠ 0#4) (s : State) :
    ∃ t, execAll [c, f, e] s = .next t ∧ t.readX rd = s.readX ra := by
  refine ⟨_, (execAll_cons (hc s)).trans ((execAll_cons (hf _)).trans (execAll_cons (he _))), ?_⟩
  rw [readX_writeX_self _ hrd, readX_writeX_other _ hcv, readX_writeX_self _ hrc, readX_writeX_self _ hrv,
    readX_writeX_other _ hca.symm, hinverse]

/-- Settles O55: the words' round trips, read back from registers that do not overwrite one another. -/
theorem msbRoundTrip : Obligations.MsbRoundTrip := by
  refine ⟨fun rd rc rv ra s hrc hrv hcv hca hrd => ?_, fun rd rc rv ra rb s hrc hrv hrd hcv hcd hhalf hversion => ?_⟩
  · exact compress_field_expand (pextWord · Config.maskMsb) (field · 15 12)
      (fun half version => pdepWord half Config.maskMsb ||| (field version 3 0 <<< 12)) (fun _ => rfl) (fun _ => rfl)
      (fun _ => rfl) expandMsb_compressMsb hrc hrv hcv hca hrd s
  · obtain ⟨hback, hfield⟩ := compressMsb_expandMsb hhalf hversion
    refine ⟨_, rfl, ?_, ?_⟩
    · rw [readX_writeX_other _ hcv, readX_writeX_self _ hrc, readX_writeX_self _ hrd, hback]
    · rw [readX_writeX_self _ hrv, readX_writeX_other _ hcd.symm, readX_writeX_self _ hrd, hfield]

/-- Settles O56: both trips are one run of three commands over the words' round trips. -/
theorem lsbRoundTrips : Obligations.LsbRoundTrips := by
  intro rd rc rv ra s hrc hrv hcv hca hrd
  constructor
  · exact compress_field_expand (pextWord · Config.maskLsb) (field · 63 60)
      (fun half nibble => pdepWord half Config.maskLsb ||| (field nibble 3 0 <<< 60)) (fun _ => rfl) (fun _ => rfl)
      (fun _ => rfl) expandLsb_compressLsb hrc hrv hcv hca hrd s
  · exact compress_field_expand (pextWord · Config.maskLex) (fun v => (field v 63 62 <<< 2) ||| field v 1 0)
      (fun half variant => pdepWord half Config.maskLex ||| pdepWord (field variant 3 0) (~~~Config.maskLex))
      (fun _ => rfl) (fun _ => rfl) (fun _ => rfl) expandLex_compressLex hrc hrv hcv hca hrd s

/-! ### Order -/

/-- Settles O57: under equal top bits the lexical half and bits 1:0 are the lsb's two digits to base 4. -/
theorem lexicalOrder : Obligations.LexicalOrder := by
  intro rd ra rb s hrd htop
  refine ⟨_, _, rfl, rfl, ?_⟩
  rw [readX_writeX_self s hrd, readX_writeX_self s hrd, toNat_pextWord_maskLex, toNat_pextWord_maskLex]
  dsimp only
  omega

end Sys2Proof.Machine
end
